-- ==== Sys2Proof/Word.lean ====
section
/-! DEFINITION. The word types of the core: 00_scope.md rules R3 and R6 (widths XLEN = 8, ALEN = 12), 30_encoding.md
rule R46 (opcode fields). All values are unsigned; bit 0 is the least significant bit. -/

namespace Sys2Proof

/-- A 4-bit field of an opcode: a register index `x` or `y`, or a count `n`. -/
abbrev Nibble := BitVec 4

/-- An 8-bit value: a general register, a timer, a memory byte, the immediate `kk`. -/
abbrev Byte := BitVec 8

/-- A 12-bit value: `I`, `pc`, a stack entry, the address field `nnn`. -/
abbrev Addr := BitVec 12

/-- A 16-bit instruction word. -/
abbrev Opcode := BitVec 16

/-- The key mask of one tick: bit `i` says that hexadecimal key `i` is down (46_keys_timers.md rule R120). -/
abbrev KeyMask := BitVec 16

end Sys2Proof
end

