-- ==== Sys2Proof/Config.lean ====
section
/-! DEFINITION. The values the spec leaves open: opaque constants with no body, so that nothing can be proved of a value
of theirs. FONT, the other parameter of 00_scope.md rule R4, is in Machine/Font.lean; the sizes of rule R3 are written
as the rules write them (0xFFF, 4096, 16, 64, 32). -/

namespace Sys2Proof

/-! ## The random generator (44_random.md rule R110)

`RNG.State` and `Seed` are types the spec leaves open; a Nat stands for a value of either, so any generator whose states
can be numbered is an instance. DESIGN CHOICE, log 8. -/

/-- The type `RNG.State`. -/
abbrev Config.RngState := Nat

/-- `RNG.init`: the state a seed gives. Free value, log 8. -/
opaque Config.rngInit : Nat → Config.RngState

/-- `RNG.next`: the byte drawn and the state after it. Free value, log 8. -/
opaque Config.rngNext : Config.RngState → Byte × Config.RngState

/-- The seed the host passes at the reset that `State.reset` is. Free value, log 8. -/
opaque Config.seed : Nat

/-! ## The host's key input (60_exceptions.md rule R145: "present any `keys` value") -/

/-- The mask presented with a tick for which no mask is queued, by the tick's number. Free value, log 1. -/
opaque Config.keysAt : Nat → KeyMask

/-! ## The state after an error (60_exceptions.md rule R135) -/

/-- A value for each element of the core that is unspecified after a failing tick: every element but the fault latch.
The memory is given as any list of cells. -/
structure Config.Wreckage where
  v : Vector Byte 16
  iReg : Addr
  pc : Addr
  stack : Vector Addr 16
  sp : Fin 17
  cells : List Host.Cell
  dt : Byte
  st : Byte
  waitForKey : Option Nibble
  rng : Config.RngState
  fb : Vector (BitVec 64) 32
deriving DecidableEq, Repr, Inhabited

/-- What is left of the core after the error of the tick with this number. Free value, log 2. -/
opaque Config.wreckage : Nat → Config.Wreckage

end Sys2Proof
end

