-- ==== Sys2Proof/Machine/Font.lean ====
section
/-! DEFINITION. The built-in font: where it is (20_memory.md rule R31, 43_index_memory.md rule R103) and the default of the
parameter FONT (20_memory.md rule R32). PRESUMED, unsafe, log 7: the 80 bytes are the spec's general knowledge. -/

namespace Sys2Proof.Machine

/-- `FONT_BASE`: the address of the first font byte. -/
def fontBase : Nat := 0x1B0

/-- `GLYPH_BYTES`: bytes per glyph. -/
def glyphBytes : Nat := 5

/-- The size of the font: 16 glyphs of 5 bytes. -/
def fontSize : Nat := 80

/-- The default glyphs of the digits 0 to 7, top row first (rule R32). -/
def fontLow : List Byte :=
  [0xF0#8, 0x90#8, 0x90#8, 0x90#8, 0xF0#8] ++
  [0x20#8, 0x60#8, 0x20#8, 0x20#8, 0x70#8] ++
  [0xF0#8, 0x10#8, 0xF0#8, 0x80#8, 0xF0#8] ++
  [0xF0#8, 0x10#8, 0xF0#8, 0x10#8, 0xF0#8] ++
  [0x90#8, 0x90#8, 0xF0#8, 0x10#8, 0x10#8] ++
  [0xF0#8, 0x80#8, 0xF0#8, 0x10#8, 0xF0#8] ++
  [0xF0#8, 0x80#8, 0xF0#8, 0x90#8, 0xF0#8] ++
  [0xF0#8, 0x10#8, 0x20#8, 0x40#8, 0x40#8]

/-- The default glyphs of the digits 8 to F. -/
def fontHigh : List Byte :=
  [0xF0#8, 0x90#8, 0xF0#8, 0x90#8, 0xF0#8] ++
  [0xF0#8, 0x90#8, 0xF0#8, 0x10#8, 0xF0#8] ++
  [0xF0#8, 0x90#8, 0xF0#8, 0x90#8, 0x90#8] ++
  [0xE0#8, 0x90#8, 0xE0#8, 0x90#8, 0xE0#8] ++
  [0xF0#8, 0x80#8, 0x80#8, 0x80#8, 0xF0#8] ++
  [0xE0#8, 0x90#8, 0x90#8, 0x90#8, 0xE0#8] ++
  [0xF0#8, 0x80#8, 0xF0#8, 0x80#8, 0xF0#8] ++
  [0xF0#8, 0x80#8, 0xF0#8, 0x80#8, 0x80#8]

/-- The default of FONT: 80 bytes. -/
def fontBytes : List Byte := fontLow ++ fontHigh

/-- What an address that memory does not list reads as: the reset contents with the default FONT, 0x00 outside the font
(10_state.md rule R23, 20_memory.md rule R38; log 6, log 7). -/
def Mem.defaultByte (a : Nat) : Byte :=
  if fontBase ≤ a ∧ a < fontBase + fontSize then fontBytes.getD (a - fontBase) 0x00#8 else 0x00#8

end Sys2Proof.Machine
end

