-- ==== Sys2Proof/Syntax.lean ====
section
/-! DEFINITION. The instructions: one constructor per row of spec/opcode_table.json (30_encoding.md rules R50 and R54).
Each "carries only the operand fields it needs" (rule R48), at exactly the field's width. -/

namespace Sys2Proof

/-- The instruction set. The order is the table's; `halt0` is its last row, the sentinel of 40_tick_cycle.md rule R64. -/
inductive Instr where
  /-- `00E0` CLS. -/
  | cls
  /-- `00EE` RET. -/
  | ret
  /-- `1nnn` JP nnn. -/
  | jp (nnn : Addr)
  /-- `2nnn` CALL nnn. -/
  | call (nnn : Addr)
  /-- `3xkk` SE Vx, kk. -/
  | seImm (x : Nibble) (kk : Byte)
  /-- `4xkk` SNE Vx, kk. -/
  | sneImm (x : Nibble) (kk : Byte)
  /-- `5xy0` SE Vx, Vy. -/
  | seReg (x y : Nibble)
  /-- `9xy0` SNE Vx, Vy. -/
  | sneReg (x y : Nibble)
  /-- `6xkk` LD Vx, kk. -/
  | ldImm (x : Nibble) (kk : Byte)
  /-- `7xkk` ADD Vx, kk. -/
  | addImm (x : Nibble) (kk : Byte)
  /-- `8xy0` LD Vx, Vy. -/
  | ldReg (x y : Nibble)
  /-- `8xy1` OR Vx, Vy. -/
  | or (x y : Nibble)
  /-- `8xy2` AND Vx, Vy. -/
  | and (x y : Nibble)
  /-- `8xy3` XOR Vx, Vy. -/
  | xor (x y : Nibble)
  /-- `8xy4` ADD Vx, Vy. -/
  | addReg (x y : Nibble)
  /-- `8xy5` SUB Vx, Vy. -/
  | sub (x y : Nibble)
  /-- `8xy6` SHR Vx, Vy. -/
  | shr (x y : Nibble)
  /-- `8xy7` SUBN Vx, Vy. -/
  | subn (x y : Nibble)
  /-- `8xyE` SHL Vx, Vy. -/
  | shl (x y : Nibble)
  /-- `Annn` LD I, nnn. -/
  | ldI (nnn : Addr)
  /-- `Bnnn` LD I, V0+nnn: not a jump in this design (43_index_memory.md rule R101). -/
  | ldIV0 (nnn : Addr)
  /-- `Cxkk` RND Vx, kk. -/
  | rnd (x : Nibble) (kk : Byte)
  /-- `Dxyn` DRW Vx, Vy, n. -/
  | drw (x y n : Nibble)
  /-- `Ex9E` SKP Vx. -/
  | skp (x : Nibble)
  /-- `ExA1` SKNP Vx. -/
  | sknp (x : Nibble)
  /-- `Fx07` LD Vx, DT. -/
  | ldVxDt (x : Nibble)
  /-- `Fx0A` LD Vx, K. -/
  | ldVxK (x : Nibble)
  /-- `Fx15` LD DT, Vx. -/
  | ldDtVx (x : Nibble)
  /-- `Fx18` LD ST, Vx. -/
  | ldStVx (x : Nibble)
  /-- `Fx1E` ADD I, Vx. -/
  | addIVx (x : Nibble)
  /-- `Fx29` LD F, Vx. -/
  | ldFVx (x : Nibble)
  /-- `Fx33` LD B, Vx. -/
  | ldBVx (x : Nibble)
  /-- `Fx55` LD [I], Vx. -/
  | stRegs (x : Nibble)
  /-- `Fx65` LD Vx, [I]. -/
  | ldRegs (x : Nibble)
  /-- `0000`, the sentinel HALT0: found by the tick before it decodes. -/
  | halt0
deriving DecidableEq, Repr

end Sys2Proof
end

