-- ==== Sys2Proof/WellFormed.lean ====
section
/-! DEFINITION. What a well-formed instruction and a well-formed instruction word are: the opcode table of 30_encoding.md
rule R50 (an opcode `op` has a pattern iff `op & mask = match`), and the ranges of the operand fields (rules R46, R48, R53). -/

namespace Sys2Proof

/-- One row of the opcode table: its identifier (rule R54), its `match` and its `mask` (rule R50). -/
structure Row where
  mnemonic : String
  pattern : Opcode
  mask : Opcode
deriving DecidableEq, Repr

/-- The row of spec/opcode_table.json each instruction belongs to. -/
def Instr.row : Instr → Row
  | .cls => ⟨"CLS", 0x00E0#16, 0xFFFF#16⟩
  | .ret => ⟨"RET", 0x00EE#16, 0xFFFF#16⟩
  | .jp _ => ⟨"JP", 0x1000#16, 0xF000#16⟩
  | .call _ => ⟨"CALL", 0x2000#16, 0xF000#16⟩
  | .seImm _ _ => ⟨"SE_IMM", 0x3000#16, 0xF000#16⟩
  | .sneImm _ _ => ⟨"SNE_IMM", 0x4000#16, 0xF000#16⟩
  | .seReg _ _ => ⟨"SE_REG", 0x5000#16, 0xF00F#16⟩
  | .sneReg _ _ => ⟨"SNE_REG", 0x9000#16, 0xF00F#16⟩
  | .ldImm _ _ => ⟨"LD_IMM", 0x6000#16, 0xF000#16⟩
  | .addImm _ _ => ⟨"ADD_IMM", 0x7000#16, 0xF000#16⟩
  | .ldReg _ _ => ⟨"LD_REG", 0x8000#16, 0xF00F#16⟩
  | .or _ _ => ⟨"OR", 0x8001#16, 0xF00F#16⟩
  | .and _ _ => ⟨"AND", 0x8002#16, 0xF00F#16⟩
  | .xor _ _ => ⟨"XOR", 0x8003#16, 0xF00F#16⟩
  | .addReg _ _ => ⟨"ADD_REG", 0x8004#16, 0xF00F#16⟩
  | .sub _ _ => ⟨"SUB", 0x8005#16, 0xF00F#16⟩
  | .shr _ _ => ⟨"SHR", 0x8006#16, 0xF00F#16⟩
  | .subn _ _ => ⟨"SUBN", 0x8007#16, 0xF00F#16⟩
  | .shl _ _ => ⟨"SHL", 0x800E#16, 0xF00F#16⟩
  | .ldI _ => ⟨"LD_I", 0xA000#16, 0xF000#16⟩
  | .ldIV0 _ => ⟨"LD_I_V0", 0xB000#16, 0xF000#16⟩
  | .rnd _ _ => ⟨"RND", 0xC000#16, 0xF000#16⟩
  | .drw _ _ _ => ⟨"DRW", 0xD000#16, 0xF000#16⟩
  | .skp _ => ⟨"SKP", 0xE09E#16, 0xF0FF#16⟩
  | .sknp _ => ⟨"SKNP", 0xE0A1#16, 0xF0FF#16⟩
  | .ldVxDt _ => ⟨"LD_VX_DT", 0xF007#16, 0xF0FF#16⟩
  | .ldVxK _ => ⟨"LD_VX_K", 0xF00A#16, 0xF0FF#16⟩
  | .ldDtVx _ => ⟨"LD_DT_VX", 0xF015#16, 0xF0FF#16⟩
  | .ldStVx _ => ⟨"LD_ST_VX", 0xF018#16, 0xF0FF#16⟩
  | .addIVx _ => ⟨"ADD_I_VX", 0xF01E#16, 0xF0FF#16⟩
  | .ldFVx _ => ⟨"LD_F_VX", 0xF029#16, 0xF0FF#16⟩
  | .ldBVx _ => ⟨"LD_B_VX", 0xF033#16, 0xF0FF#16⟩
  | .stRegs _ => ⟨"ST_REGS", 0xF055#16, 0xF0FF#16⟩
  | .ldRegs _ => ⟨"LD_REGS", 0xF065#16, 0xF0FF#16⟩
  | .halt0 => ⟨"HALT0", 0x0000#16, 0xFFFF#16⟩

/-- The 34 patterns of rule R50, in the table's order. The sentinel's row is not among them: "not in the decoder"
(rule R52). -/
def opcodeTable : List Row :=
  [Instr.row .cls,
   Instr.row .ret,
   Instr.row (.jp 0),
   Instr.row (.call 0),
   Instr.row (.seImm 0 0),
   Instr.row (.sneImm 0 0),
   Instr.row (.seReg 0 0),
   Instr.row (.sneReg 0 0)] ++
  [Instr.row (.ldImm 0 0),
   Instr.row (.addImm 0 0),
   Instr.row (.ldReg 0 0),
   Instr.row (.or 0 0),
   Instr.row (.and 0 0),
   Instr.row (.xor 0 0),
   Instr.row (.addReg 0 0),
   Instr.row (.sub 0 0),
   Instr.row (.shr 0 0),
   Instr.row (.subn 0 0),
   Instr.row (.shl 0 0)] ++
  [Instr.row (.ldI 0),
   Instr.row (.ldIV0 0),
   Instr.row (.rnd 0 0),
   Instr.row (.drw 0 0 0)] ++
  [Instr.row (.skp 0),
   Instr.row (.sknp 0),
   Instr.row (.ldVxDt 0),
   Instr.row (.ldVxK 0),
   Instr.row (.ldDtVx 0),
   Instr.row (.ldStVx 0),
   Instr.row (.addIVx 0),
   Instr.row (.ldFVx 0),
   Instr.row (.ldBVx 0),
   Instr.row (.stRegs 0),
   Instr.row (.ldRegs 0)]

/-- The opcode has the row's pattern. -/
def Row.matches (r : Row) (op : Opcode) : Bool := op &&& r.mask == r.pattern

/-- A word is well-formed iff it has one of the 34 patterns; the others are the invalid words of rule R51. -/
def wellFormedWord (op : Opcode) : Bool := opcodeTable.any (fun r => r.matches op)

/-- Every operand is in its field's range (rule R48). The field types are exactly that wide and rule R53 makes every
value legal, so this holds of every instruction: `Instr.wellFormed_true` of Laws/PerInstr.lean. -/
def Instr.wellFormed : Instr → Bool
  | .cls => true
  | .ret => true
  | .jp nnn => decide (nnn.toNat < 4096)
  | .call nnn => decide (nnn.toNat < 4096)
  | .seImm x kk => decide (x.toNat < 16) && decide (kk.toNat < 256)
  | .sneImm x kk => decide (x.toNat < 16) && decide (kk.toNat < 256)
  | .seReg x y => decide (x.toNat < 16) && decide (y.toNat < 16)
  | .sneReg x y => decide (x.toNat < 16) && decide (y.toNat < 16)
  | .ldImm x kk => decide (x.toNat < 16) && decide (kk.toNat < 256)
  | .addImm x kk => decide (x.toNat < 16) && decide (kk.toNat < 256)
  | .ldReg x y => decide (x.toNat < 16) && decide (y.toNat < 16)
  | .or x y => decide (x.toNat < 16) && decide (y.toNat < 16)
  | .and x y => decide (x.toNat < 16) && decide (y.toNat < 16)
  | .xor x y => decide (x.toNat < 16) && decide (y.toNat < 16)
  | .addReg x y => decide (x.toNat < 16) && decide (y.toNat < 16)
  | .sub x y => decide (x.toNat < 16) && decide (y.toNat < 16)
  | .shr x y => decide (x.toNat < 16) && decide (y.toNat < 16)
  | .subn x y => decide (x.toNat < 16) && decide (y.toNat < 16)
  | .shl x y => decide (x.toNat < 16) && decide (y.toNat < 16)
  | .ldI nnn => decide (nnn.toNat < 4096)
  | .ldIV0 nnn => decide (nnn.toNat < 4096)
  | .rnd x kk => decide (x.toNat < 16) && decide (kk.toNat < 256)
  | .drw x y n => decide (x.toNat < 16) && decide (y.toNat < 16) && decide (n.toNat < 16)
  | .skp x => decide (x.toNat < 16)
  | .sknp x => decide (x.toNat < 16)
  | .ldVxDt x => decide (x.toNat < 16)
  | .ldVxK x => decide (x.toNat < 16)
  | .ldDtVx x => decide (x.toNat < 16)
  | .ldStVx x => decide (x.toNat < 16)
  | .addIVx x => decide (x.toNat < 16)
  | .ldFVx x => decide (x.toNat < 16)
  | .ldBVx x => decide (x.toNat < 16)
  | .stRegs x => decide (x.toNat < 16)
  | .ldRegs x => decide (x.toNat < 16)
  | .halt0 => true

end Sys2Proof
end

