-- ==== Sys2Proof/Decode.lean ====
section
/-! DEFINITION. The decoder (30_encoding.md rules R45 to R53), and after it the encoder written from the same table
(rules R47 and R50). -/

namespace Sys2Proof

/-! ## Fields of an opcode (rule R46) -/

/-- `n0`, bits 15..12: the major opcode. -/
def opN0 (op : Opcode) : Nibble := op.extractLsb' 12 4

/-- `n1`, bits 11..8: the register index `x`. -/
def opX (op : Opcode) : Nibble := op.extractLsb' 8 4

/-- `n2`, bits 7..4: the register index `y`. -/
def opY (op : Opcode) : Nibble := op.extractLsb' 4 4

/-- `n3`, bits 3..0: the sprite height, or a minor opcode. -/
def opN3 (op : Opcode) : Nibble := op.extractLsb' 0 4

/-- `b1`, bits 7..0: the immediate `kk`, or a minor opcode. -/
def opKk (op : Opcode) : Byte := op.extractLsb' 0 8

/-- `nnn`, bits 11..0: the 12-bit address. -/
def opNnn (op : Opcode) : Addr := op.extractLsb' 0 12

/-! ## The decoder -/

/-- Group `8xy?` of rule R49, dispatched on `n3`. -/
def decodeGroup8 (op : Opcode) : Option Instr :=
  match (opN3 op).toNat with
  | 0x0 => some (.ldReg (opX op) (opY op))
  | 0x1 => some (.or (opX op) (opY op))
  | 0x2 => some (.and (opX op) (opY op))
  | 0x3 => some (.xor (opX op) (opY op))
  | 0x4 => some (.addReg (opX op) (opY op))
  | 0x5 => some (.sub (opX op) (opY op))
  | 0x6 => some (.shr (opX op) (opY op))
  | 0x7 => some (.subn (opX op) (opY op))
  | 0xE => some (.shl (opX op) (opY op))
  | _ => none

/-- Group `Ex??` of rule R49, dispatched on `b1`. -/
def decodeGroupE (op : Opcode) : Option Instr :=
  match (opKk op).toNat with
  | 0x9E => some (.skp (opX op))
  | 0xA1 => some (.sknp (opX op))
  | _ => none

/-- Group `Fx??` of rule R49, dispatched on `b1`. -/
def decodeGroupF (op : Opcode) : Option Instr :=
  match (opKk op).toNat with
  | 0x07 => some (.ldVxDt (opX op))
  | 0x0A => some (.ldVxK (opX op))
  | 0x15 => some (.ldDtVx (opX op))
  | 0x18 => some (.ldStVx (opX op))
  | 0x1E => some (.addIVx (opX op))
  | 0x29 => some (.ldFVx (opX op))
  | 0x33 => some (.ldBVx (opX op))
  | 0x55 => some (.stRegs (opX op))
  | 0x65 => some (.ldRegs (opX op))
  | _ => none

/-- `Decode(op)` of rule R49: `none` is the source's `invalid`. 0x0000 is `invalid` here (rule R52); the tick tests for
it before it decodes. -/
def decode (op : Opcode) : Option Instr :=
  match (opN0 op).toNat with
  | 0x0 => if op = 0x00E0#16 then some .cls else if op = 0x00EE#16 then some .ret else none
  | 0x1 => some (.jp (opNnn op))
  | 0x2 => some (.call (opNnn op))
  | 0x3 => some (.seImm (opX op) (opKk op))
  | 0x4 => some (.sneImm (opX op) (opKk op))
  | 0x5 => if opN3 op = 0x0#4 then some (.seReg (opX op) (opY op)) else none
  | 0x6 => some (.ldImm (opX op) (opKk op))
  | 0x7 => some (.addImm (opX op) (opKk op))
  | 0x8 => decodeGroup8 op
  | 0x9 => if opN3 op = 0x0#4 then some (.sneReg (opX op) (opY op)) else none
  | 0xA => some (.ldI (opNnn op))
  | 0xB => some (.ldIV0 (opNnn op))
  | 0xC => some (.rnd (opX op) (opKk op))
  | 0xD => some (.drw (opX op) (opY op) (opN3 op))
  | 0xE => decodeGroupE op
  | 0xF => decodeGroupF op
  | _ => none

/-- What the tick makes of a fetched opcode: the sentinel test of 40_tick_cycle.md rule R64 first, then `Decode`
(rule R66). -/
def identify (op : Opcode) : Option Instr :=
  if op = 0x0000#16 then some .halt0 else decode op

/-- Why bytes are no instruction. -/
inductive DecodeReject where
  /-- The word has none of the 34 patterns and is not 0x0000 (rule R51): the tick raises InvalidInstruction. -/
  | invalid (op : Opcode)
  /-- Fewer than two bytes are left: an instruction is always two bytes long (rule R45). -/
  | truncated
deriving DecidableEq, Repr

/-- The opcode two bytes of memory make: big-endian, the byte at the lower address is bits 15..8 (20_memory.md
rule R34). -/
def joinBytes (hi lo : Byte) : Opcode := hi ++ lo

/-- Read one instruction from the front of a list of bytes; total, and what it rejects it rejects by name. -/
def decodeBytes : List Byte → Except DecodeReject (Instr × List Byte)
  | hi :: lo :: rest =>
    match identify (joinBytes hi lo) with
    | some i => .ok (i, rest)
    | none => .error (.invalid (joinBytes hi lo))
  | _ => .error .truncated

/-! ## The encoder (rules R47 and R50) -/

/-- Format `NNN`: `?nnn`. -/
def packNNN (n0 : Nibble) (nnn : Addr) : Opcode := n0 ++ nnn

/-- Format `XKK`: `?xkk`; also format `X`, whose low byte is fixed. -/
def packXKK (n0 x : Nibble) (kk : Byte) : Opcode := n0 ++ x ++ kk

/-- Format `XYN`: `?xyn`; also format `XY`, whose low nibble is fixed. -/
def packXYN (n0 x y n : Nibble) : Opcode := n0 ++ x ++ y ++ n

/-- The word of an instruction: its pattern with the fields filled in (rule R54). -/
def encode : Instr → Opcode
  | .cls => 0x00E0#16
  | .ret => 0x00EE#16
  | .jp nnn => packNNN 0x1#4 nnn
  | .call nnn => packNNN 0x2#4 nnn
  | .seImm x kk => packXKK 0x3#4 x kk
  | .sneImm x kk => packXKK 0x4#4 x kk
  | .seReg x y => packXYN 0x5#4 x y 0x0#4
  | .sneReg x y => packXYN 0x9#4 x y 0x0#4
  | .ldImm x kk => packXKK 0x6#4 x kk
  | .addImm x kk => packXKK 0x7#4 x kk
  | .ldReg x y => packXYN 0x8#4 x y 0x0#4
  | .or x y => packXYN 0x8#4 x y 0x1#4
  | .and x y => packXYN 0x8#4 x y 0x2#4
  | .xor x y => packXYN 0x8#4 x y 0x3#4
  | .addReg x y => packXYN 0x8#4 x y 0x4#4
  | .sub x y => packXYN 0x8#4 x y 0x5#4
  | .shr x y => packXYN 0x8#4 x y 0x6#4
  | .subn x y => packXYN 0x8#4 x y 0x7#4
  | .shl x y => packXYN 0x8#4 x y 0xE#4
  | .ldI nnn => packNNN 0xA#4 nnn
  | .ldIV0 nnn => packNNN 0xB#4 nnn
  | .rnd x kk => packXKK 0xC#4 x kk
  | .drw x y n => packXYN 0xD#4 x y n
  | .skp x => packXKK 0xE#4 x 0x9E#8
  | .sknp x => packXKK 0xE#4 x 0xA1#8
  | .ldVxDt x => packXKK 0xF#4 x 0x07#8
  | .ldVxK x => packXKK 0xF#4 x 0x0A#8
  | .ldDtVx x => packXKK 0xF#4 x 0x15#8
  | .ldStVx x => packXKK 0xF#4 x 0x18#8
  | .addIVx x => packXKK 0xF#4 x 0x1E#8
  | .ldFVx x => packXKK 0xF#4 x 0x29#8
  | .ldBVx x => packXKK 0xF#4 x 0x33#8
  | .stRegs x => packXKK 0xF#4 x 0x55#8
  | .ldRegs x => packXKK 0xF#4 x 0x65#8
  | .halt0 => 0x0000#16

/-- Bits 15..8 of an opcode: the byte stored at the lower address (20_memory.md rule R34). -/
def highByte (op : Opcode) : Byte := op.extractLsb' 8 8

/-- Bits 7..0 of an opcode: the byte stored at the higher address. -/
def lowByte (op : Opcode) : Byte := op.extractLsb' 0 8

/-- An opcode's two bytes as the hardware stores them. -/
def opcodeBytes (op : Opcode) : List Byte := [highByte op, lowByte op]

/-- The host's question of the decoder: the table numbers an instruction's bits as the 16-bit opcode's, so the bits are
laid out as the two bytes of that opcode and given to `decodeBytes`. -/
def decodeTableWord (nbits w : Nat) : Option Instr :=
  match decodeBytes (opcodeBytes (BitVec.ofNat 16 (w % 2 ^ nbits))) with
  | .ok (i, _) => some i
  | .error _ => none

end Sys2Proof
end

