-- ==== Sys2Proof/Machine/State.lean ====
section
/-! DEFINITION. The state of the core (10_state.md, section 1: "The core holds no state other than the table", rule R25),
the error record of its fault latch, the reasons a step could stop, and the state right after reset (rule R23). -/

namespace Sys2Proof.Machine

/-- The memory `mem` (10_state.md rule R15): the cells whose byte differs from what an unlisted address reads as
(`Mem.defaultByte`), addresses strictly rising. -/
abbrev Mem := List Host.Cell

/-- The pixels `fb` (10_state.md rule R20): pixel `fb[y][x]` is bit `x` of row word `y` (packing free: U15, log 11). -/
abbrev Framebuffer := Vector (BitVec 64) 32

/-- The five error kinds of 60_exceptions.md rule R130; `addressOutOfRange` carries the offending value. -/
inductive ErrorKind where
  /-- Code 1, raised by the tick for an opcode that decodes to `invalid` (40_tick_cycle.md rule R66). -/
  | invalidInstruction
  /-- Code 2, raised by `2nnn` when `sp = 16`. -/
  | stackOverflow
  /-- Code 3, raised by `00EE` when `sp = 0`. -/
  | stackUnderflow
  /-- Code 4, raised by `Ex9E` and `ExA1` when `V[x] > 15`. -/
  | invalidKey
  /-- Code 5, the spec's own: an address above 0xFFF, or a value above 0xFFF written to `I`, `pc` or a stack entry. -/
  | addressOutOfRange (value : Nat)
deriving DecidableEq, Repr

/-- What the fault latch holds (10_state.md rule R21, 60_exceptions.md rule R135). `opcode` is 0 if the fetch itself
failed (rule R130). -/
structure ErrorRecord where
  kind : ErrorKind
  pc : Addr
  opcode : Opcode
deriving DecidableEq, Repr

/-- The whole state. The last three fields are the model's own: the key input port and the counter the free values are
applied to (log 1, log 2). -/
structure State where
  /-- `V0..VF`, rules R10 and R11. -/
  v : Vector Byte 16
  /-- `I`, rule R12. -/
  iReg : Addr
  /-- `pc`, rule R13. -/
  pc : Addr
  /-- `stack[0..15]`, rule R14. -/
  stack : Vector Addr 16
  /-- `sp`, the number of entries in use, 0..16, rule R14. -/
  sp : Fin 17
  /-- `mem`, rule R15. -/
  mem : Mem
  /-- `DT`, rule R16. -/
  dt : Byte
  /-- `ST`, rule R16. -/
  st : Byte
  /-- `wait_for_key`, rule R18. -/
  waitForKey : Option Nibble
  /-- `rng`, rule R19. -/
  rng : Config.RngState
  /-- `fb`, rule R20. -/
  fb : Framebuffer
  /-- `fault`, rule R21. -/
  fault : Option ErrorRecord
  /-- The input `keys` of the current tick (40_tick_cycle.md rule R71); not core state: each tick begins by sampling it
  anew. -/
  keys : KeyMask
  /-- The masks the host will present with the coming ticks, the next tick's first. -/
  keyFeed : List KeyMask
  /-- How many ticks have been requested. -/
  ticks : Nat
deriving DecidableEq, Repr

/-- Why a step stops without a next state. There is no such reason on this machine: "A tick is atomic and always
returns" (40_tick_cycle.md rule R68), and the error of a failing tick is a next state in which the fault latch is set
(60_exceptions.md rule R135; log 3). -/
inductive Fault where
deriving DecidableEq, Repr

/-- Why the model gives an instruction no meaning. -/
inductive Refusal where
  /-- Answered by an arm of `exec` for an instruction not modelled yet. Safe. No arm answers it in this model. -/
  | notModelled (mnemonic : String)
deriving DecidableEq, Repr

/-- What one step answers. -/
abbrev StepOutcome := Host.Outcome State Fault Refusal

/-- The state right after reset with the default FONT and the seed `Config.seed` (rule R23 and 70_reset_and_hazards.md
rule R150): `State.applyReset` of Machine/Reset.lean is the reset with any FONT and any seed. -/
def State.reset : State where
  v := Vector.replicate 16 0x00#8
  iReg := 0x000#12
  pc := 0x200#12
  stack := Vector.replicate 16 0x000#12
  sp := 0
  mem := []
  dt := 0x00#8
  st := 0x00#8
  waitForKey := none
  rng := Config.rngInit Config.seed
  fb := Vector.replicate 32 0x0#64
  fault := none
  keys := 0x0000#16
  keyFeed := []
  ticks := 0

end Sys2Proof.Machine
end

