-- ==== Sys2Proof/Machine/Ops.lean ====
section
/-! DEFINITION. The named operations over registers, memory, `I`, `pc`, the stack, the input port and the fault latch. A
result `Except.error k` is a `raise k` of the spec's pseudocode (00_scope.md rule R6). -/

namespace Sys2Proof.Machine

/-! ## Memory -/

/-- The byte at an address. -/
def Mem.read : Mem → Nat → Byte
  | [], a => Mem.defaultByte a
  | (c, d) :: m, a => if c = a then d else Mem.read m a

/-- `mem[a] <- b`, keeping the cells in canonical form. -/
def Mem.write : Mem → Nat → Byte → Mem
  | [], a, b => if b = Mem.defaultByte a then [] else [(a, b)]
  | (c, d) :: m, a, b =>
    if a < c then (if b = Mem.defaultByte a then (c, d) :: m else (a, b) :: (c, d) :: m)
    else if a = c then (if b = Mem.defaultByte a then m else (a, b) :: m)
    else (c, d) :: Mem.write m a b

/-- `mem[a + j] <- bs[j]` for each `j`, ascending. -/
def Mem.writeList : Mem → Nat → List Byte → Mem
  | m, _, [] => m
  | m, a, b :: bs => Mem.writeList (Mem.write m a b) (a + 1) bs

/-- The memory whose listed bytes are those of any list of cells (of two for one address the first counts). -/
def Mem.ofCells : List Host.Cell → Mem
  | [] => []
  | (a, b) :: cs => Mem.write (Mem.ofCells cs) (a % 4096) b

/-- The canonical form, from address `lo` up: addresses strictly rising and below `MEM_SIZE`, no cell equal to what its
address reads as unlisted. -/
def Mem.wfFrom : Nat → Mem → Bool
  | _, [] => true
  | lo, (a, b) :: m =>
    decide (lo ≤ a) && decide (a < 4096) && decide (b ≠ Mem.defaultByte a) && Mem.wfFrom (a + 1) m

/-- The memory is in canonical form. -/
def Mem.wf (m : Mem) : Bool := Mem.wfFrom 0 m

/-- `MemRead(addr, 1)` of 20_memory.md rule R33. -/
def State.memRead1 (s : State) (a : Nat) : Except ErrorKind Byte :=
  if a > 0xFFF then .error (.addressOutOfRange a) else .ok (Mem.read s.mem a)

/-- `MemRead(addr, 2)` of rule R33: big-endian. -/
def State.memRead2 (s : State) (a : Nat) : Except ErrorKind Opcode :=
  if a + 1 > 0xFFF then .error (.addressOutOfRange (a + 1))
  else .ok (joinBytes (Mem.read s.mem a) (Mem.read s.mem (a + 1)))

/-- `MemWrite(addr, 1, v)` of rule R33; any address is writable, the font included (rule R37). -/
def State.memWrite1 (s : State) (a : Nat) (b : Byte) : Except ErrorKind State :=
  if a > 0xFFF then .error (.addressOutOfRange a) else .ok { s with mem := Mem.write s.mem a b }

/-- `n` reads of one byte from address `a`, ascending (20_memory.md rule R36). -/
def State.readBytes (s : State) : Nat → Nat → Except ErrorKind (List Byte)
  | _, 0 => .ok []
  | a, n + 1 =>
    match s.memRead1 a with
    | .error k => .error k
    | .ok b =>
      match s.readBytes (a + 1) n with
      | .error k => .error k
      | .ok bs => .ok (b :: bs)

/-- Writes of one byte each from address `a`, ascending (rule R36). -/
def State.writeBytes : State → Nat → List Byte → Except ErrorKind State
  | s, _, [] => .ok s
  | s, a, b :: bs =>
    match s.memWrite1 a b with
    | .error k => .error k
    | .ok t => t.writeBytes (a + 1) bs

/-! ## General registers (10_state.md rules R10, R11) -/

/-- `V[r]`. -/
def State.reg (s : State) (r : Nibble) : Byte := s.v[r.toNat]'(r.isLt)

/-- `V[r] <- b`. -/
def State.setReg (s : State) (r : Nibble) (b : Byte) : State := { s with v := s.v.set r.toNat b r.isLt }

/-- `VF`'s index. -/
def vf : Nibble := 0xF#4

/-- A flag as `VF` holds it: always 0x00 or 0x01. -/
def flagByte (c : Bool) : Byte := if c then 0x01#8 else 0x00#8

/-- `VF <- flag`. -/
def State.setFlag (s : State) (c : Bool) : State := s.setReg vf (flagByte c)

/-- The write order of 42_alu.md rule R97: the result to `V[x]`, then the flag to `VF`, which wins when `x = 0xF`. -/
def State.setResultFlag (s : State) (x : Nibble) (result : Byte) (flag : Bool) : State :=
  (s.setReg x result).setFlag flag

/-! ## The twelve-bit elements (10_state.md rule R22: never reduced modulo 4096) -/

/-- `I <- t`. -/
def State.writeI (s : State) (t : Nat) : Except ErrorKind State :=
  if t > 0xFFF then .error (.addressOutOfRange t) else .ok { s with iReg := BitVec.ofNat 12 t }

/-- Push of `2nnn` (10_state.md rule R14, 41_control_flow.md rule R77): `sp = 16` is tested first. -/
def State.push (s : State) (ra : Nat) : Except ErrorKind State :=
  if h : s.sp.val < 16 then
    if ra > 0xFFF then .error (.addressOutOfRange ra)
    else .ok { s with
      stack := s.stack.set s.sp.val (BitVec.ofNat 12 ra) h
      sp := ⟨s.sp.val + 1, Nat.succ_lt_succ h⟩ }
  else .error .stackOverflow

/-- Pop of `00EE` (rules R14, R75): the state with `sp` lowered and the address popped; the entry keeps its value. -/
def State.pop (s : State) : Except ErrorKind (State × Addr) :=
  if h : 0 < s.sp.val then
    .ok ({ s with sp := ⟨s.sp.val - 1, Nat.lt_of_le_of_lt (Nat.sub_le _ _) s.sp.isLt⟩ },
      s.stack[s.sp.val - 1]'(Nat.lt_of_lt_of_le (Nat.sub_lt h Nat.one_pos) (Nat.le_of_lt_succ s.sp.isLt)))
  else .error .stackUnderflow

/-! ## Errors (60_exceptions.md rule R135) -/

/-- Error entry, `raise K(info)`: the fault latch takes the kind, the instruction's address (`pc` holds it until the
tick's last act, 10_state.md rule R13) and its opcode. Every other element of the core is unspecified after it, so each is
a free value (log 2); the input port and the tick counter are not the core's. There is no return: only reset clears the
latch (rule R136). -/
def State.raise (s : State) (k : ErrorKind) (op : Opcode) : State where
  v := (Config.wreckage s.ticks).v
  iReg := (Config.wreckage s.ticks).iReg
  pc := (Config.wreckage s.ticks).pc
  stack := (Config.wreckage s.ticks).stack
  sp := (Config.wreckage s.ticks).sp
  mem := Mem.ofCells (Config.wreckage s.ticks).cells
  dt := (Config.wreckage s.ticks).dt
  st := (Config.wreckage s.ticks).st
  waitForKey := (Config.wreckage s.ticks).waitForKey
  rng := (Config.wreckage s.ticks).rng
  fb := (Config.wreckage s.ticks).fb
  fault := some ⟨k, s.pc, op⟩
  keys := s.keys
  keyFeed := s.keyFeed
  ticks := s.ticks

/-- Go on with what an operation gave, or `raise` what it raised, while executing `i`. -/
def State.orRaise {α : Type} (s : State) (i : Instr) (r : Except ErrorKind α) (k : α → State) : State :=
  match r with
  | .error e => s.raise e (encode i)
  | .ok a => k a

/-! ## The end of a tick (40_tick_cycle.md rule R67) -/

/-- `pc <- next_pc`, the last act of the tick that executes `i`. -/
def State.writePc (s : State) (i : Instr) (next : Nat) : State :=
  if next > 0xFFF then s.raise (.addressOutOfRange next) (encode i)
  else { s with pc := BitVec.ofNat 12 next }

/-- The automatic advance: `next_pc = pc + 2`. -/
def State.advance (s : State) (i : Instr) : State := s.writePc i (s.pc.toNat + 2)

/-- A skip: `next_pc = pc + 4` where the condition holds, else `pc + 2`. -/
def State.skipIf (s : State) (i : Instr) (c : Bool) : State :=
  s.writePc i (if c then s.pc.toNat + 4 else s.pc.toNat + 2)

/-! ## Timers and key input -/

/-- One timer's step: down by 1 if nonzero, floor at 0 (40_tick_cycle.md rule R65). -/
def countDown (t : Byte) : Byte := if t = 0x00#8 then 0x00#8 else t - 1#8

/-- The timer step of a tick. -/
def State.stepTimers (s : State) : State := { s with dt := countDown s.dt, st := countDown s.st }

/-- The mask the host presents with the next tick: the first of the feed, a free value where the feed is empty
(60_exceptions.md rule R145; log 1). -/
def State.nextKeys (s : State) : KeyMask :=
  match s.keyFeed with
  | [] => Config.keysAt s.ticks
  | k :: _ => k

/-- `keys` is sampled once, when the tick is requested (40_tick_cycle.md rule R71). -/
def State.sampleKeys (s : State) : State :=
  { s with keys := s.nextKeys, keyFeed := s.keyFeed.tail, ticks := s.ticks + 1 }

end Sys2Proof.Machine
end

