-- ==== Sys2Proof/Machine/Flags.lean ====
section
/-! DEFINITION. Every flag computation: what `VF` is set to by `8xy4`, `8xy5`, `8xy6`, `8xy7`, `8xyE` (10_state.md rule
R11, 42_alu.md rules R91 to R95). The sixth, the collision of `Dxyn`, comes out of `draw` in Framebuffer.lean. -/

namespace Sys2Proof.Machine

/-- Carry: "1 iff the unsigned sum exceeds 255". -/
def carryOf (a b : Byte) : Bool := decide (a.toNat + b.toNat > 255)

/-- NOT borrow of `a - b`: 1 iff `a >= b` before the subtraction. -/
def notBorrow (a b : Byte) : Bool := decide (a.toNat ≥ b.toNat)

/-- The bit a right shift by one pushes out. -/
def lsbOf (a : Byte) : Bool := a.getLsbD 0

/-- The bit a left shift by one pushes out. -/
def msbOf (a : Byte) : Bool := a.getLsbD 7

end Sys2Proof.Machine
end

