-- ==== Sys2Proof/Machine/Alu.lean ====
section
/-! DEFINITION. Register load, arithmetic, logic and shift (42_alu.md rules R85 to R97): arithmetic is modulo 256, both
sources are read before anything is written, the flag is written after the result (rule R97). -/

namespace Sys2Proof.Machine

/-- `6xkk` LD Vx, kk, rule R85. -/
def execLdImm (x : Nibble) (kk : Byte) (s : State) : StepOutcome :=
  .next ((s.setReg x kk).advance (.ldImm x kk))

/-- `7xkk` ADD Vx, kk, rule R86: no flag. -/
def execAddImm (x : Nibble) (kk : Byte) (s : State) : StepOutcome :=
  .next ((s.setReg x (s.reg x + kk)).advance (.addImm x kk))

/-- `8xy0` LD Vx, Vy, rule R87. -/
def execLdReg (x y : Nibble) (s : State) : StepOutcome :=
  .next ((s.setReg x (s.reg y)).advance (.ldReg x y))

/-- `8xy1` OR Vx, Vy, rule R88: no flag. -/
def execOr (x y : Nibble) (s : State) : StepOutcome :=
  .next ((s.setReg x (s.reg x ||| s.reg y)).advance (.or x y))

/-- `8xy2` AND Vx, Vy, rule R89: no flag. -/
def execAnd (x y : Nibble) (s : State) : StepOutcome :=
  .next ((s.setReg x (s.reg x &&& s.reg y)).advance (.and x y))

/-- `8xy3` XOR Vx, Vy, rule R90: no flag. -/
def execXor (x y : Nibble) (s : State) : StepOutcome :=
  .next ((s.setReg x (s.reg x ^^^ s.reg y)).advance (.xor x y))

/-- `8xy4` ADD Vx, Vy, rule R91. -/
def execAddReg (x y : Nibble) (s : State) : StepOutcome :=
  .next ((s.setResultFlag x (s.reg x + s.reg y) (carryOf (s.reg x) (s.reg y))).advance (.addReg x y))

/-- `8xy5` SUB Vx, Vy, rule R92. -/
def execSub (x y : Nibble) (s : State) : StepOutcome :=
  .next ((s.setResultFlag x (s.reg x - s.reg y) (notBorrow (s.reg x) (s.reg y))).advance (.sub x y))

/-- `8xy6` SHR Vx, Vy, rule R93: the source is `Vy`. -/
def execShr (x y : Nibble) (s : State) : StepOutcome :=
  .next ((s.setResultFlag x (s.reg y >>> 1) (lsbOf (s.reg y))).advance (.shr x y))

/-- `8xy7` SUBN Vx, Vy, rule R94. -/
def execSubn (x y : Nibble) (s : State) : StepOutcome :=
  .next ((s.setResultFlag x (s.reg y - s.reg x) (notBorrow (s.reg y) (s.reg x))).advance (.subn x y))

/-- `8xyE` SHL Vx, Vy, rule R95: the source is `Vy`. -/
def execShl (x y : Nibble) (s : State) : StepOutcome :=
  .next ((s.setResultFlag x (s.reg y <<< 1) (msbOf (s.reg y))).advance (.shl x y))

end Sys2Proof.Machine
end

