-- ==== Sys2Proof/Machine/ControlFlow.lean ====
section
/-! DEFINITION. Control transfer (41_control_flow.md rules R75 to R81) and the sentinel (40_tick_cycle.md rule R64). Each
meaning is the instruction's `Execute` and the tick's final write of `pc` (rule R67). -/

namespace Sys2Proof.Machine

/-- `00EE` RET, rule R75. -/
def execRet (s : State) : StepOutcome :=
  .next (s.orRaise .ret s.pop (fun (t, ra) => t.writePc .ret ra.toNat))

/-- `1nnn` JP, rule R76. -/
def execJp (nnn : Addr) (s : State) : StepOutcome := .next (s.writePc (.jp nnn) nnn.toNat)

/-- `2nnn` CALL, rule R77: the return address is `pc + 2`. -/
def execCall (nnn : Addr) (s : State) : StepOutcome :=
  .next (s.orRaise (.call nnn) (s.push (s.pc.toNat + 2)) (fun t => t.writePc (.call nnn) nnn.toNat))

/-- `3xkk` SE Vx, kk, rule R78. -/
def execSeImm (x : Nibble) (kk : Byte) (s : State) : StepOutcome :=
  .next (s.skipIf (.seImm x kk) (s.reg x == kk))

/-- `4xkk` SNE Vx, kk, rule R79. -/
def execSneImm (x : Nibble) (kk : Byte) (s : State) : StepOutcome :=
  .next (s.skipIf (.sneImm x kk) (s.reg x != kk))

/-- `5xy0` SE Vx, Vy, rule R80. -/
def execSeReg (x y : Nibble) (s : State) : StepOutcome :=
  .next (s.skipIf (.seReg x y) (s.reg x == s.reg y))

/-- `9xy0` SNE Vx, Vy, rule R81. -/
def execSneReg (x y : Nibble) (s : State) : StepOutcome :=
  .next (s.skipIf (.sneReg x y) (s.reg x != s.reg y))

/-- `0000` HALT0, rule R64: no effect, `pc` is not advanced; the tick that finds it has not stepped the timers. -/
def execHalt0 (s : State) : StepOutcome := .next s

end Sys2Proof.Machine
end

