-- ==== Sys2Proof/Machine/Framebuffer.lean ====
section
/-! DEFINITION. The three operations of the framebuffer: `clear`, `draw`, `get` (45_display.md rules R113 to R115). Every
coordinate is reduced modulo 64 or 32 by itself (20_memory.md rule R39). -/

namespace Sys2Proof.Machine

/-- Pixel `fb[y mod 32][x mod 64]`. -/
def Framebuffer.pixel (fb : Framebuffer) (x y : Nat) : Bool :=
  (fb[y % 32]'(Nat.mod_lt y (by decide))).getLsbD (x % 64)

/-- Invert pixel `fb[y mod 32][x mod 64]`. -/
def Framebuffer.flip (fb : Framebuffer) (x y : Nat) : Framebuffer :=
  fb.set (y % 32) (fb[y % 32]'(Nat.mod_lt y (by decide)) ^^^ (1#64 <<< (x % 64))) (Nat.mod_lt y (by decide))

/-- `clear()` of rule R113. -/
def Framebuffer.blank : Framebuffer := Vector.replicate 32 0x0#64

/-- The inner statement of `draw` for a sprite bit of 1: note the collision, invert the pixel. -/
def drawPixel (acc : Framebuffer × Bool) (x y : Nat) : Framebuffer × Bool :=
  (Framebuffer.flip acc.1 x y, acc.2 || Framebuffer.pixel acc.1 x y)

/-- One row of a sprite, columns `c` in the order given; bit 7 is column 0 (rule R114). -/
def drawRow (row : Byte) (x0 y : Nat) : List Nat → Framebuffer × Bool → Framebuffer × Bool
  | [], acc => acc
  | c :: cs, acc => drawRow row x0 y cs (if row.getLsbD (7 - c) then drawPixel acc (x0 + c) y else acc)

/-- The columns of a sprite row. -/
def spriteColumns : List Nat := [0, 1, 2, 3, 4, 5, 6, 7]

/-- The rows of a sprite, downward from `y`. -/
def drawRows (x0 : Nat) : Nat → List Byte → Framebuffer × Bool → Framebuffer × Bool
  | _, [], acc => acc
  | y, row :: rows, acc => drawRows x0 (y + 1) rows (drawRow row x0 y spriteColumns acc)

/-- `draw(x0, y0, rows)` of rule R114: the framebuffer after it and the collision. -/
def Framebuffer.draw (fb : Framebuffer) (x0 y0 : Byte) (rows : List Byte) : Framebuffer × Bool :=
  drawRows x0.toNat y0.toNat rows (fb, false)

/-- `get(x, y)` of rule R115: the host's read port. -/
def State.getPixel (s : State) (x y : Nat) : Bool := Framebuffer.pixel s.fb x y

end Sys2Proof.Machine
end

