-- ==== Sys2Proof/Machine/Operands.lean ====
section
/-! DEFINITION. The operand forms: register ranges, the address `I` plus an offset, the font address, the BCD digits, the
key a register names, the lowest key that is down, the random byte. Fields of an instruction are used as they are
(30_encoding.md rule R48). -/

namespace Sys2Proof.Machine

/-- `V0..Vx`, ascending and inclusive (43_index_memory.md rules R105, R106). -/
def regsUpTo (x : Nibble) : List Nibble := (List.range (x.toNat + 1)).map (BitVec.ofNat 4)

/-- `I` as a number: effective addresses are `I + j`, unbounded (43_index_memory.md rule R107). -/
def State.base (s : State) : Nat := s.iReg.toNat

/-- The address of a digit's glyph, `font_base + 5 × digit`, for the whole byte (43_index_memory.md rule R103). -/
def glyphAddress (digit : Byte) : Nat := fontBase + glyphBytes * digit.toNat

/-- The three BCD digits, hundreds first (43_index_memory.md rule R104). -/
def bcdDigits (b : Byte) : List Byte :=
  [BitVec.ofNat 8 (b.toNat / 100), BitVec.ofNat 8 (b.toNat / 10 % 10), BitVec.ofNat 8 (b.toNat % 10)]

/-- Key `k` is down in this tick (46_keys_timers.md rule R120). -/
def State.keyDown (s : State) (k : Nat) : Bool := s.keys.getLsbD k

/-- The sixteen key indices, ascending. -/
def keyIndices : List Nibble := (List.range 16).map (BitVec.ofNat 4)

/-- "scan key bits 0..15 in ascending order, take the lowest set bit" (40_tick_cycle.md rule R62); none if no key is
down. -/
def lowestKey (keys : KeyMask) : Option Nibble := keyIndices.find? (fun k => keys.getLsbD k.toNat)

/-- One draw of the generator: the byte (44_random.md rules R110, R111). -/
def State.randomByte (s : State) : Byte := (Config.rngNext s.rng).1

/-- One draw of the generator: the state that has drawn. -/
def State.drawRandom (s : State) : State := { s with rng := (Config.rngNext s.rng).2 }

/-- `MemWrite(a + r, 1, V[r])` for each register of a list, in its order. -/
def State.storeRegs : State → Nat → List Nibble → Except ErrorKind State
  | s, _, [] => .ok s
  | s, a, r :: rs =>
    match s.memWrite1 (a + r.toNat) (s.reg r) with
    | .error k => .error k
    | .ok t => t.storeRegs a rs

/-- `V[r] <- MemRead(a + r, 1)` for each register of a list, in its order. -/
def State.loadRegs : State → Nat → List Nibble → Except ErrorKind State
  | s, _, [] => .ok s
  | s, a, r :: rs =>
    match s.memRead1 (a + r.toNat) with
    | .error k => .error k
    | .ok b => (s.setReg r b).loadRegs a rs

end Sys2Proof.Machine
end

