-- ==== Sys2Proof/Machine/Display.lean ====
section
/-! DEFINITION. `00E0` and `Dxyn` (45_display.md rules R116 and R117). -/

namespace Sys2Proof.Machine

/-- `00E0` CLS, rule R116: no flag. -/
def execCls (s : State) : StepOutcome := .next ({ s with fb := Framebuffer.blank }.advance .cls)

/-- Draw rows at `(V[x], V[y])`, both read before `VF` is written, and set `VF` to the collision (rule R117). -/
def State.drawSprite (s : State) (x y : Nibble) (rows : List Byte) : State :=
  let drawn := Framebuffer.draw s.fb (s.reg x) (s.reg y) rows
  { s with fb := drawn.1 }.setFlag drawn.2

/-- `Dxyn` DRW Vx, Vy, n, rule R117: all `n` bytes are read before anything is drawn. -/
def execDrw (x y n : Nibble) (s : State) : StepOutcome :=
  .next (s.orRaise (.drw x y n) (s.readBytes s.base n.toNat) (fun rows =>
    (s.drawSprite x y rows).advance (.drw x y n)))

end Sys2Proof.Machine
end

