-- ==== Sys2Proof/Machine/Index.lean ====
section
/-! DEFINITION. The address register `I` and the memory instructions (43_index_memory.md rules R100 to R107). Effective
addresses come from `I` as it is at the start of the instruction. -/

namespace Sys2Proof.Machine

/-- `Annn` LD I, nnn, rule R100. -/
def execLdI (nnn : Addr) (s : State) : StepOutcome :=
  .next (s.orRaise (.ldI nnn) (s.writeI nnn.toNat) (fun t => t.advance (.ldI nnn)))

/-- `Bnnn` LD I, V0+nnn, rule R101: a write of `I`, not a jump. -/
def execLdIV0 (nnn : Addr) (s : State) : StepOutcome :=
  .next (s.orRaise (.ldIV0 nnn) (s.writeI (nnn.toNat + (s.reg 0x0#4).toNat)) (fun t => t.advance (.ldIV0 nnn)))

/-- `Fx1E` ADD I, Vx, rule R102: no flag. -/
def execAddIVx (x : Nibble) (s : State) : StepOutcome :=
  .next (s.orRaise (.addIVx x) (s.writeI (s.base + (s.reg x).toNat)) (fun t => t.advance (.addIVx x)))

/-- `Fx29` LD F, Vx, rule R103: the whole byte, unmasked. -/
def execLdFVx (x : Nibble) (s : State) : StepOutcome :=
  .next (s.orRaise (.ldFVx x) (s.writeI (glyphAddress (s.reg x))) (fun t => t.advance (.ldFVx x)))

/-- `Fx33` LD B, Vx, rule R104: `I` is not changed. -/
def execLdBVx (x : Nibble) (s : State) : StepOutcome :=
  .next (s.orRaise (.ldBVx x) (s.writeBytes s.base (bcdDigits (s.reg x))) (fun t => t.advance (.ldBVx x)))

/-- `Fx55` LD [I], Vx, rule R105: the bytes, then `I` past the last one. -/
def execStRegs (x : Nibble) (s : State) : StepOutcome :=
  .next (s.orRaise (.stRegs x) (s.storeRegs s.base (regsUpTo x)) (fun t =>
    t.orRaise (.stRegs x) (t.writeI (s.base + x.toNat + 1)) (fun u => u.advance (.stRegs x))))

/-- `Fx65` LD Vx, [I], rule R106: the bytes, then `I` past the last one. -/
def execLdRegs (x : Nibble) (s : State) : StepOutcome :=
  .next (s.orRaise (.ldRegs x) (s.loadRegs s.base (regsUpTo x)) (fun t =>
    t.orRaise (.ldRegs x) (t.writeI (s.base + x.toNat + 1)) (fun u => u.advance (.ldRegs x))))

end Sys2Proof.Machine
end

