-- ==== Sys2Proof/Machine/KeysTimers.lean ====
section
/-! DEFINITION. Key input and timer instructions (46_keys_timers.md rules R121 to R126). The tick's timer step has been
made before any of them runs. -/

namespace Sys2Proof.Machine

/-- The check of the two key skips: the whole register value, not its low nibble (rule R121). -/
def State.keyIndex (s : State) (x : Nibble) : Except ErrorKind Nat :=
  if (s.reg x).toNat > 15 then .error .invalidKey else .ok (s.reg x).toNat

/-- `Ex9E` SKP Vx, rule R121. -/
def execSkp (x : Nibble) (s : State) : StepOutcome :=
  .next (s.orRaise (.skp x) (s.keyIndex x) (fun k => s.skipIf (.skp x) (s.keyDown k)))

/-- `ExA1` SKNP Vx, rule R122. -/
def execSknp (x : Nibble) (s : State) : StepOutcome :=
  .next (s.orRaise (.sknp x) (s.keyIndex x) (fun k => s.skipIf (.sknp x) (!s.keyDown k)))

/-- `Fx07` LD Vx, DT, rule R123. -/
def execLdVxDt (x : Nibble) (s : State) : StepOutcome := .next ((s.setReg x s.dt).advance (.ldVxDt x))

/-- `Fx0A` LD Vx, K, rule R124: the wait is set and nothing else; `keys` is not examined. -/
def execLdVxK (x : Nibble) (s : State) : StepOutcome :=
  .next ({ s with waitForKey := some x }.advance (.ldVxK x))

/-- `Fx15` LD DT, Vx, rule R125. -/
def execLdDtVx (x : Nibble) (s : State) : StepOutcome := .next ({ s with dt := s.reg x }.advance (.ldDtVx x))

/-- `Fx18` LD ST, Vx, rule R126. -/
def execLdStVx (x : Nibble) (s : State) : StepOutcome := .next ({ s with st := s.reg x }.advance (.ldStVx x))

end Sys2Proof.Machine
end

