-- ==== Sys2Proof/Machine/Random.lean ====
section
/-! DEFINITION. `Cxkk` (44_random.md rule R111): exactly one byte is drawn, and nothing else draws (rule R112). -/

namespace Sys2Proof.Machine

/-- `Cxkk` RND Vx, kk, rule R111. -/
def execRnd (x : Nibble) (kk : Byte) (s : State) : StepOutcome :=
  .next ((s.drawRandom.setReg x (s.randomByte &&& kk)).advance (.rnd x kk))

end Sys2Proof.Machine
end

