-- ==== Sys2Proof/Machine/Tick.lean ====
section
/-! DEFINITION. The phases of a tick (40_tick_cycle.md rule R60): fault latch, key-wait, fetch, sentinel, timers, decode and
execute. `exec` makes the execute phase and the final write of `pc`. -/

namespace Sys2Proof.Machine

/-- Phase 1, the key-wait (rule R62): `none` if the core is waiting and no key is down; else the running state, with the
lowest key that is down stored in the waiting register if there was a wait. -/
def State.keyWait (s : State) : Option State :=
  match s.waitForKey with
  | none => some s
  | some r =>
    match lowestKey s.keys with
    | none => none
    | some k => some { s.setReg r (k.setWidth 8) with waitForKey := none }

/-- Phase 2, the fetch (rule R63). -/
def State.fetch (s : State) : Except ErrorKind Opcode := s.memRead2 s.pc.toNat

/-- Phases 3 to 5 on a fetched opcode: the sentinel before the timers and the decoder (rule R64), the timer step before
the decoder (rule R65), `InvalidInstruction` (rule R66), the instruction (rule R67). -/
def State.runOpcode (s : State) (op : Opcode) : StepOutcome :=
  if op = 0x0000#16 then exec .halt0 s
  else
    match decode op with
    | none => .next (s.stepTimers.raise .invalidInstruction op)
    | some i => exec i s.stepTimers

/-- Phases 2 to 5 of a tick of the running core. A fetch that fails reports the opcode 0 (60_exceptions.md rule R130). -/
def State.runPhases (s : State) : StepOutcome :=
  match s.fetch with
  | .error k => .next (s.raise k 0x0000#16)
  | .ok op => s.runOpcode op

/-- `Tick(keys)` of rule R60, `keys` being sampled already: phase 0, the fault latch (rule R61), phase 1, then the
others. -/
def tick (s : State) : StepOutcome :=
  match s.fault with
  | some _ => .next s
  | none =>
    match s.keyWait with
    | none => .next s
    | some t => t.runPhases

/-- `s` with the opcode stored where the next tick fetches, and the next tick bound to fetch: no error latched, no
key-wait, and `pc` at 0x200 where it is 0xFFF, from which nothing can be fetched (log 10). -/
def State.placeOpcode (s : State) (op : Opcode) : State :=
  let pc := if s.pc = 0xFFF#12 then 0x200#12 else s.pc
  { s with
    pc := pc
    mem := Mem.write (Mem.write s.mem pc.toNat (highByte op)) (pc.toNat + 1) (lowByte op)
    waitForKey := none
    fault := none }

end Sys2Proof.Machine
end

