-- ==== Sys2Proof/Machine/Step.lean ====
section
/-! DEFINITION. One step: the host requests one tick (60_exceptions.md rule R142). -/

namespace Sys2Proof.Machine

/-- One assertion of `tick`: the mask is sampled, then `Tick(keys)` is performed completely. -/
def step (s : State) : Host.Outcome State Fault Refusal := tick s.sampleKeys

/-- `s` with the instruction whose opcode has the bits `w` placed where the next step fetches. -/
def State.withFetchWord (s : State) (nbits w : Nat) : State := s.placeOpcode (BitVec.ofNat 16 (w % 2 ^ nbits))

end Sys2Proof.Machine
end

