-- ==== Sys2Proof/Machine/Reset.lean ====
section
/-! DEFINITION. What the host does to the core besides ticking it, and what it reads of it (60_exceptions.md rules R141 to
R146): reset, the program load, the outputs. -/

namespace Sys2Proof.Machine

/-- `Reset(seed)` of 70_reset_and_hazards.md rule R150 with the parameter FONT as an argument (00_scope.md rule R4): it
replaces the whole core state, at any time, also after an error. The input port is the host's and stays. -/
def State.applyReset (s : State) (font : Vector Byte 80) (seed : Nat) : State where
  v := Vector.replicate 16 0x00#8
  iReg := 0x000#12
  pc := 0x200#12
  stack := Vector.replicate 16 0x000#12
  sp := 0
  mem := Mem.writeList [] fontBase font.toList
  dt := 0x00#8
  st := 0x00#8
  waitForKey := none
  rng := Config.rngInit seed
  fb := Framebuffer.blank
  fault := none
  keys := s.keys
  keyFeed := s.keyFeed
  ticks := s.ticks

/-- The host's program load between reset and the first tick: the bytes verbatim from 0x200; `none` if they do not fit
(20_memory.md rule R43, 70_reset_and_hazards.md rule R152). -/
def State.loadProgram (s : State) (program : List Byte) : Option State :=
  if program.length ≤ 3584 then some { s with mem := Mem.writeList s.mem 0x200 program } else none

/-- The host queues masks to present with the coming ticks. -/
def State.presentKeys (s : State) (masks : List KeyMask) : State := { s with keyFeed := s.keyFeed ++ masks }

/-- The output `sound_active` (10_state.md rule R17). -/
def State.soundActive (s : State) : Bool := decide (s.st.toNat > 0)

/-- The 3 bits of `result` that name the kind (60_exceptions.md rule R141). -/
abbrev ErrorCode := BitVec 3

/-- The codes 1 to 5 of 60_exceptions.md rule R130. -/
def ErrorKind.code : ErrorKind → ErrorCode
  | .invalidInstruction => 1#3
  | .stackOverflow => 2#3
  | .stackUnderflow => 3#3
  | .invalidKey => 4#3
  | .addressOutOfRange _ => 5#3

/-- What a tick returns (40_tick_cycle.md rule R70): `Ok`, or the kind, `pc` and opcode at the widths of the output
`result` (60_exceptions.md rule R141). -/
inductive TickResult where
  | ok
  | error (kind : ErrorCode) (pc : Addr) (opcode : Opcode)
deriving DecidableEq, Repr

/-- The result of the tick just completed: it failed iff the fault latch is set after it (rule R61, 60_exceptions.md
rule R135). The offending value of AddressOutOfRange (rule R130) stays in the latch. -/
def State.result (s : State) : TickResult :=
  match s.fault with
  | none => .ok
  | some e => .error e.kind.code e.pc e.opcode

end Sys2Proof.Machine
end

