-- ==== Sys2Proof/Safety.lean ====
section
/-! DEFINITION. The terms claims use: the kinds of state of 40_tick_cycle.md rule R69, where an instruction's end-of-tick
write of `pc` is in range (rule R67, 10_state.md rule R22), the invariant every step keeps, what each instruction may write
and which error it raises. -/

namespace Sys2Proof.Machine

/-- No error is latched: the last tick, if any, returned `Ok`. -/
abbrev State.Ok (s : State) : Prop := s.fault = none

/-- The tick failed with this error: the fault latch holds its whole record, the offending value included, and the result
is the kind's code with `pc` and opcode (60_exceptions.md rules R135, R141). -/
abbrev State.Raised (s : State) (kind : ErrorKind) (pc : Addr) (opcode : Opcode) : Prop :=
  s.fault = some ⟨kind, pc, opcode⟩ ∧ s.result = .error kind.code pc opcode

/-- The control state `running` (10_state.md rule R18) with no error latched: the next tick goes to the fetch. -/
abbrev State.Running (s : State) : Prop := s.fault = none ∧ s.waitForKey = none

/-- The core is blocked on a key for register `r`, with no error latched. -/
abbrev State.WaitingOn (s : State) (r : Nibble) : Prop := s.fault = none ∧ s.waitForKey = some r

/-- The opcode at `pc` is in memory: `pc <= 0xFFE` and the two bytes there make `op`. -/
abbrev State.Fetches (s : State) (op : Opcode) : Prop :=
  s.pc.toNat + 1 ≤ 0xFFF ∧
    joinBytes (Mem.read s.mem s.pc.toNat) (Mem.read s.mem (s.pc.toNat + 1)) = op

/-- `halted` of rule R69. -/
abbrev State.Halted (s : State) : Prop := s.Running ∧ s.Fetches 0x0000#16

/-- The automatic advance `pc + 2` is in range. -/
abbrev State.AdvanceFits (s : State) : Prop := s.pc.toNat + 2 ≤ 0xFFF

/-- A taken skip's `pc + 4` is in range. -/
abbrev State.SkipFits (s : State) : Prop := s.pc.toNat + 4 ≤ 0xFFF

/-- The record is one that 60_exceptions.md rule R130 describes: its kind fits its opcode, and the offending value of
`AddressOutOfRange` is above 0xFFF and no larger than the largest sum an instruction forms, 0xFFF + 0xFF. -/
def ErrorRecord.legal (e : ErrorRecord) : Bool :=
  match e.kind with
  | .invalidInstruction => identify e.opcode == none
  | .stackOverflow => opN0 e.opcode == 0x2#4
  | .stackUnderflow => e.opcode == 0x00EE#16
  | .invalidKey => opN0 e.opcode == 0xE#4 && (opKk e.opcode == 0x9E#8 || opKk e.opcode == 0xA1#8)
  | .addressOutOfRange a =>
    decide (0xFFF < a) && decide (a ≤ 0xFFF + 0xFF) &&
      ((e.opcode == 0x0000#16 && e.pc == 0xFFF#12) || (decode e.opcode).isSome)

/-- What every step keeps: the memory is in canonical form, and an error record, if one is latched, is one the spec
describes. -/
abbrev State.Inv (s : State) : Prop := Mem.wf s.mem = true ∧ s.fault.all ErrorRecord.legal = true

/-! ## What each instruction may write (the frame) -/

/-- The general registers an instruction may write: its destination, and `VF` for the six of 10_state.md rule R11. -/
def writesReg (i : Instr) (r : Nibble) : Bool :=
  match i with
  | .ldImm x _ | .addImm x _ | .rnd x _ | .ldVxDt x => r == x
  | .ldReg x _ | .or x _ | .and x _ | .xor x _ => r == x
  | .addReg x _ | .sub x _ | .shr x _ | .subn x _ | .shl x _ => r == x || r == 0xF#4
  | .drw _ _ _ => r == 0xF#4
  | .ldRegs x => decide (r.toNat ≤ x.toNat)
  | .cls | .ret | .jp _ | .call _ | .seImm _ _ | .sneImm _ _ | .seReg _ _ | .sneReg _ _ => false
  | .ldI _ | .ldIV0 _ | .skp _ | .sknp _ | .ldVxK _ | .ldDtVx _ | .ldStVx _ | .addIVx _ | .ldFVx _ => false
  | .ldBVx _ | .stRegs _ | .halt0 => false

/-- The instructions that write `I` (10_state.md rule R12). -/
def writesI : Instr → Bool
  | .ldI _ | .ldIV0 _ | .addIVx _ | .ldFVx _ | .stRegs _ | .ldRegs _ => true
  | _ => false

/-- The addresses an instruction stores to: from the base `I` that its meaning uses (20_memory.md rule R36). -/
def storesAt (i : Instr) (s : State) (a : Nat) : Bool :=
  match i with
  | .ldBVx _ => decide (s.base ≤ a ∧ a < s.base + 3)
  | .stRegs x => decide (s.base ≤ a ∧ a ≤ s.base + x.toNat)
  | _ => false

/-- A sprite bit of 1 of `Dxyn` lands on pixel `(px, py)` (45_display.md rule R114). -/
def State.SpriteHits (s : State) (x y n : Nibble) (px py : Nat) : Prop :=
  ∃ r c, r < n.toNat ∧ c < 8 ∧ (Mem.read s.mem (s.base + r)).getLsbD (7 - c) = true ∧
    px = ((s.reg x).toNat + c) % 64 ∧ py = ((s.reg y).toNat + r) % 32

/-! ## Which error executing an instruction raises (60_exceptions.md rules R131 and R133) -/

/-- A value above 0xFFF for a 12-bit element. -/
def rangeError (value : Nat) : Option ErrorKind :=
  if value > 0xFFF then some (.addressOutOfRange value) else none

/-- A skip's write of `pc`. -/
def State.skipError (s : State) (taken : Bool) : Option ErrorKind :=
  rangeError (s.pc.toNat + if taken then 4 else 2)

/-- `key`, unless the register is above 15. -/
def State.keyError (s : State) (x : Nibble) (key : Option ErrorKind) : Option ErrorKind :=
  if (s.reg x).toNat > 15 then some .invalidKey else key

/-- Memory accessed, or `I` advanced, up to `last`: the first value above 0xFFF is 0x1000; else the advance of `pc`. -/
def State.reachError (s : State) (last : Nat) : Option ErrorKind :=
  if last > 0xFFF then some (.addressOutOfRange 0x1000) else rangeError (s.pc.toNat + 2)

/-- The table of rule R131, in the order of rule R133. -/
def errorOf (i : Instr) (s : State) : Option ErrorKind :=
  match i with
  | .halt0 | .jp _ => none
  | .ret => if s.sp.val = 0 then some .stackUnderflow else none
  | .call _ => if s.sp.val = 16 then some .stackOverflow else rangeError (s.pc.toNat + 2)
  | .seImm x kk => s.skipError (s.reg x == kk)
  | .sneImm x kk => s.skipError (s.reg x != kk)
  | .seReg x y => s.skipError (s.reg x == s.reg y)
  | .sneReg x y => s.skipError (s.reg x != s.reg y)
  | .skp x => s.keyError x (s.skipError (s.keys.getLsbD (s.reg x).toNat))
  | .sknp x => s.keyError x (s.skipError (!s.keys.getLsbD (s.reg x).toNat))
  | .ldIV0 nnn => (rangeError (nnn.toNat + (s.reg 0x0#4).toNat)).or (rangeError (s.pc.toNat + 2))
  | .addIVx x => (rangeError (s.base + (s.reg x).toNat)).or (rangeError (s.pc.toNat + 2))
  | .ldBVx _ => s.reachError (s.base + 2)
  | .stRegs x | .ldRegs x => s.reachError (s.base + x.toNat + 1)
  | .drw _ _ n => s.reachError (if n.toNat ≥ 1 then s.base + n.toNat - 1 else 0)
  | .cls | .ldImm _ _ | .addImm _ _ | .ldReg _ _ | .or _ _ | .and _ _ | .xor _ _ => rangeError (s.pc.toNat + 2)
  | .addReg _ _ | .sub _ _ | .shr _ _ | .subn _ _ | .shl _ _ => rangeError (s.pc.toNat + 2)
  | .ldI _ | .rnd _ _ | .ldVxDt _ | .ldVxK _ | .ldDtVx _ | .ldStVx _ | .ldFVx _ => rangeError (s.pc.toNat + 2)

end Sys2Proof.Machine
end

