-- ==== Sys2Proof/Certificates/Slice0/Obligations.lean ====
section
/-! DEFINITION. The statements for the provers. Each docstring names the sentence of spec/ it formalises, and says where a
clause rests on a decision of the spec's own or on a choice of the model. `t.fault = none` says that the tick so far
returned `Ok`. -/

open Sys2Proof Sys2Proof.Machine

/-! ## Encoding and decoding -/

/-- 30_encoding.md R49, R50, R54: every instruction, with every operand at every value, is read back from its word. The
sentinel is read by the tick's test before the decoder (decision D4 of the spec, log 13). -/
def Obligations.EncodeThenDecode : Prop :=
  ∀ i : Instr, i.wellFormed = true →
    identify (encode i) = some i ∧ decodeBytes (opcodeBytes (encode i)) = .ok (i, []) ∧
      decodeTableWord 16 (encode i).toNat = some i

/-- 30_encoding.md R49: "every 16-bit value maps to exactly one Instruction variant": the word of what is read from `op`
is `op`. -/
def Obligations.DecodeThenEncode : Prop :=
  ∀ (op : Opcode) (i : Instr), identify op = some i → encode i = op

/-- 30_encoding.md R51: "Every opcode that matches no row of rule R50 decodes to `invalid`", and no other does. -/
def Obligations.InvalidIffNoPattern : Prop :=
  ∀ op : Opcode, decode op = none ↔ ∀ r ∈ opcodeTable, op &&& r.mask ≠ r.pattern

/-- 30_encoding.md R50: "No two patterns overlap." -/
def Obligations.PatternsDoNotOverlap : Prop :=
  ∀ (op : Opcode) (r q : Row), r ∈ opcodeTable → q ∈ opcodeTable → r.matches op = true → q.matches op = true → r = q

/-- 30_encoding.md R49 to R52: ten words written out from the patterns, two invalid words, and the sentinel, which the decoder
alone calls invalid; that 0x0000 is read as the sentinel is decision D4 of the spec, and that it is a constructor is the
model's choice (log 13). -/
def Obligations.SampleWordsDecode : Prop :=
  decode 0x00E0#16 = some .cls ∧ decode 0x2ABC#16 = some (.call 0xABC#12) ∧
    decode 0x5AB0#16 = some (.seReg 0xA#4 0xB#4) ∧
    decode 0x6A2F#16 = some (.ldImm 0xA#4 0x2F#8) ∧ decode 0x8124#16 = some (.addReg 0x1#4 0x2#4) ∧
    decode 0xB2F0#16 = some (.ldIV0 0x2F0#12) ∧ decode 0xC5F0#16 = some (.rnd 0x5#4 0xF0#8) ∧
    decode 0xDAB5#16 = some (.drw 0xA#4 0xB#4 0x5#4) ∧ decode 0xE19E#16 = some (.skp 0x1#4) ∧
    decode 0xF255#16 = some (.stRegs 0x2#4) ∧ decode 0x0123#16 = none ∧ decode 0x8AB8#16 = none ∧
    decode 0x0000#16 = none ∧ identify 0x0000#16 = some .halt0

/-! ## Reset -/

/-- 70_reset_and_hazards.md R150, 10_state.md R23, from any state, for any FONT and seed. `pc`, the running state, the
font's presence and the blank screen are the source's; the zeros are decision D15 of the spec (log 6). -/
def Obligations.ResetValues : Prop :=
  ∀ (s : State) (font : Vector Byte 80) (seed : Nat), ∃ t, t = s.applyReset font seed ∧
    t.pc = 0x200#12 ∧ (∀ r, t.reg r = 0x00#8) ∧ t.iReg = 0x000#12 ∧ t.sp.val = 0 ∧
    (∀ j, j < 16 → t.stack[j]? = some 0x000#12) ∧ t.dt = 0x00#8 ∧ t.st = 0x00#8 ∧ t.waitForKey = none ∧
    t.rng = Config.rngInit seed ∧ (∀ x y, t.getPixel x y = false) ∧ t.fault = none ∧ t.soundActive = false ∧
    (∀ j, j < 80 → font[j]? = some (Mem.read t.mem (0x1B0 + j))) ∧
    (∀ a, a < 0x1B0 ∨ 0x200 ≤ a → Mem.read t.mem a = 0x00#8)

/-- The invariant of `StepKeepsInvariant` holds right after reset. -/
def Obligations.ResetMeetsInvariant : Prop := State.reset.Inv

/-! ## The tick (40_tick_cycle.md) -/

/-- R61, 60_exceptions.md R136 (decision D18 of the spec): while an error is latched a tick changes nothing of the core
and returns the same error again. What moves is the input port of the model (log 1). -/
def Obligations.LatchedErrorStays : Prop :=
  ∀ (s : State) (e : ErrorRecord), s.fault = some e →
    ∃ t, step s = .next t ∧ t = { s with keys := s.nextKeys, keyFeed := s.keyFeed.tail, ticks := s.ticks + 1 } ∧
      t.result = .error e.kind.code e.pc e.opcode

/-- R62, first case (decisions D5, D7 of the spec): waiting and no key down, the tick is the identity on the core. What moves
is the input port of the model (log 1). -/
def Obligations.WaitingWithoutKeyIsIdentity : Prop :=
  ∀ (s : State) (r : Nibble), s.WaitingOn r → s.nextKeys = 0x0000#16 →
    ∃ t, step s = .next t ∧ t = { s with keys := s.nextKeys, keyFeed := s.keyFeed.tail, ticks := s.ticks + 1 } ∧
      t.result = .ok

/-- R62, second case (decisions D5, D6, D7 of the spec): the lowest key that is down goes into the waiting register, the
wait ends, and the tick goes on as the tick of that running core does. -/
def Obligations.WaitEndsWithLowestKey : Prop :=
  ∀ (s : State) (r : Nibble), s.WaitingOn r → s.nextKeys ≠ 0x0000#16 →
    ∃ k : Nibble, s.nextKeys.getLsbD k.toNat = true ∧ (∀ j, j < k.toNat → s.nextKeys.getLsbD j = false) ∧
      step s = step { s.setReg r (k.setWidth 8) with waitForKey := none }

/-- R63, 20_memory.md R33 (decisions D2, D20 of the spec): a fetch at 0xFFF raises AddressOutOfRange(0x1000), reported with
the opcode 0. -/
def Obligations.FetchPastTopRaises : Prop :=
  ∀ s : State, s.Running → s.pc = 0xFFF#12 →
    ∃ t, step s = .next t ∧ t.fault = some ⟨.addressOutOfRange 0x1000, 0xFFF#12, 0x0000#16⟩

/-- R64, R69 (decision D4 of the spec; log 13): the sentinel has no effect, `pc` and the timers included, and the core that
fetches it is halted: every tick is the identity on the core. What moves is the input port of the model (log 1). -/
def Obligations.SentinelHalts : Prop :=
  (∀ s : State, exec .halt0 s = .next s) ∧
    ∀ s : State, s.Halted → ∃ t, step s = .next t ∧
      t = { s with keys := s.nextKeys, keyFeed := s.keyFeed.tail, ticks := s.ticks + 1 } ∧ t.Halted

/-- R66: "fails with `InvalidInstruction` if decode yields `invalid`", carrying the program counter and the opcode. -/
def Obligations.InvalidOpcodeRaises : Prop :=
  ∀ (s : State) (op : Opcode), s.Running → s.Fetches op → op ≠ 0x0000#16 → decode op = none →
    ∃ t, step s = .next t ∧ t.Raised .invalidInstruction s.pc op

/-- R60, R65, R67: a running core that fetches the word of an instruction other than the sentinel samples the keys, steps
both timers, and executes it. The order of the phases is decision D3 of the spec, the sentinel's exception D4; that the mask
comes from `keyFeed` and `ticks` counts is the model's choice (log 1), and so is that `exec` holds the final write of `pc`
(log 14). -/
def Obligations.StepRunsDecodedInstruction : Prop :=
  ∀ (s : State) (op : Opcode) (i : Instr), s.Running → s.Fetches op → op ≠ 0x0000#16 → decode op = some i →
    i.wellFormed = true →
    step s = exec i { s with
      keys := s.nextKeys, keyFeed := s.keyFeed.tail, ticks := s.ticks + 1
      dt := countDown s.dt, st := countDown s.st }

/-- R65, 10_state.md R16 (decisions D3, D5 of the spec): a tick that executes an instruction and returns `Ok` lowers each
timer by 1, floor 0, but for the timer its instruction writes. -/
def Obligations.TimersCountDown : Prop :=
  ∀ (s t : State) (op : Opcode), s.Running → s.Fetches op → op ≠ 0x0000#16 → step s = .next t → t.fault = none →
    ((∀ x, op ≠ encode (.ldDtVx x)) → t.dt.toNat = s.dt.toNat - 1) ∧
    ((∀ x, op ≠ encode (.ldStVx x)) → t.st.toNat = s.st.toNat - 1)

/-- R68: "A tick is atomic and always returns". -/
def Obligations.StepAlwaysReturns : Prop := ∀ s : State, ∃ t, step s = .next t

/-- 41_control_flow.md R82 (c), 10_state.md R13: where `pc` can be after a tick that returned `Ok`: unchanged (the sentinel,
decision D4 of the spec; a wait, D5, D7), past one instruction or two (the distance `pc + 4` is D25), the target of a jump or
call, or the popped return address (log 5). -/
def Obligations.ProgramCounterTargets : Prop :=
  ∀ s t : State, step s = .next t → t.fault = none →
    (t.pc = s.pc ∧ (s.Fetches 0x0000#16 ∨ (s.waitForKey ≠ none ∧ s.nextKeys = 0x0000#16))) ∨
    t.pc = s.pc + 2#12 ∨ t.pc = s.pc + 4#12 ∨
    (∃ nnn, (s.Fetches (encode (.jp nnn)) ∨ s.Fetches (encode (.call nnn))) ∧ t.pc = nnn) ∨
    (s.Fetches (encode .ret) ∧ 0 < s.sp.val ∧ s.stack[s.sp.val - 1]? = some t.pc)

/-- 44_random.md R112 (decision D31 of the spec), for ticks that return `Ok` (what an error leaves is log 2): a tick that
executes `Cxkk`, the tick that ends a wait included (D6), advances the generator by one draw, and no other tick advances
it. -/
def Obligations.RandomAdvancesOnlyByRnd : Prop :=
  ∀ s t : State, step s = .next t → t.fault = none →
    (∀ x kk, s.Fetches (encode (.rnd x kk)) → s.waitForKey = none ∨ s.nextKeys ≠ 0x0000#16 →
      t.rng = (Config.rngNext s.rng).2) ∧
    ((∀ x kk, ¬ s.Fetches (encode (.rnd x kk))) ∨ (s.waitForKey ≠ none ∧ s.nextKeys = 0x0000#16) → t.rng = s.rng)

/-- 45_display.md R118 (a), for ticks that return `Ok` (what an error leaves is log 2): the framebuffer changes only in
`00E0` and `Dxyn`. -/
def Obligations.ScreenChangesOnlyByClsAndDrw : Prop :=
  ∀ s t : State, step s = .next t → t.fault = none →
    t.fb = s.fb ∨ s.Fetches (encode .cls) ∨ ∃ x y n, s.Fetches (encode (.drw x y n))

/-! ## Memory (20_memory.md) -/

/-- R40: a read returns the latest byte written, and a write leaves every other address alone; any address is writable
(decision D14 of the spec). The canonical form is the model's own. -/
def Obligations.ReadAfterWrite : Prop :=
  ∀ (m : Mem) (a b : Nat) (d : Byte), Mem.wf m = true → a < 4096 →
    Mem.read (Mem.write m a d) a = d ∧ (b ≠ a → Mem.read (Mem.write m a d) b = Mem.read m b) ∧
      Mem.wf (Mem.write m a d) = true

/-- R42, R34: an instruction just stored by `Fx55` where the next tick fetches is what that tick fetches, the byte at the
lower address as the high byte. -/
def Obligations.StoredOpcodeIsFetched : Prop :=
  ∀ (s t : State) (x : Nibble), Mem.wf s.mem = true → s.fault = none → 0x1 ≤ x.toNat → s.base = s.pc.toNat + 2 →
    exec (.stRegs x) s = .next t → t.fault = none →
    t.Fetches (joinBytes (s.reg 0x0#4) (s.reg 0x1#4))

/-! ## Errors (60_exceptions.md) -/

/-- R131, R133 (decisions D2, D19, D20 of the spec; log 4): executing an instruction raises exactly the error the table
names, reported with the instruction's address and opcode, and nothing else raises one. -/
def Obligations.ErrorsAreTheTable : Prop :=
  ∀ (i : Instr) (s : State), s.fault = none →
    ∃ t, exec i s = .next t ∧ t.fault = (errorOf i s).map (fun k => ⟨k, s.pc, encode i⟩)

/-- R130, R133: a key skip on a register above 15 raises InvalidKey, wherever `pc` is. That it precedes the range error is
decision D19 of the spec, that it carries `pc` and opcode D20. -/
def Obligations.KeyAboveFifteenRaises : Prop :=
  ∀ (s : State) (x : Nibble), 15 < (s.reg x).toNat →
    (∃ t, exec (.skp x) s = .next t ∧ t.Raised .invalidKey s.pc (encode (.skp x))) ∧
    (∃ t, exec (.sknp x) s = .next t ∧ t.Raised .invalidKey s.pc (encode (.sknp x)))

/-- Every step keeps the memory in canonical form and a latched error one that R130 describes. The canonical form is the
model's own (20_memory.md R30 gives the addresses), also where an error leaves a free memory, which the spec leaves
unspecified (log 2). That a range error found after a write has exactly this pc, opcode and value is the model's reading
(log 4; decisions D2, D20 of the spec). -/
def Obligations.StepKeepsInvariant : Prop := ∀ s t : State, s.Inv → step s = .next t → t.Inv

/-! ## Frames: what an instruction leaves unchanged when it raises no error -/

/-- 10_state.md R10, R11: a general register an instruction does not name as its destination is unchanged, `VF` included
but for the six instructions of R11. That `VF` is kept is decision D27 of the spec for `6xkk`, `7xkk`, `8xy0` to `8xy3` and
decision D13 for `Fx1E` and `Bnnn` (log 5). -/
def Obligations.OtherRegistersUnchanged : Prop :=
  ∀ (i : Instr) (s t : State) (r : Nibble), exec i s = .next t → t.fault = none → writesReg i r = false →
    t.reg r = s.reg r

/-- 10_state.md section 1, "written by": every other element of the core is unchanged but for its own writers (the
generator's: decision D31 of the spec). The input port, the model's own (log 1), is unchanged too. -/
def Obligations.OtherElementsUnchanged : Prop :=
  ∀ (i : Instr) (s t : State), exec i s = .next t → t.fault = none →
    (writesI i = false → t.iReg = s.iReg) ∧
    ((∀ nnn, i ≠ .call nnn) → t.stack = s.stack) ∧
    ((∀ nnn, i ≠ .call nnn) → i ≠ .ret → t.sp = s.sp) ∧
    ((∀ x, i ≠ .ldDtVx x) → t.dt = s.dt) ∧
    ((∀ x, i ≠ .ldStVx x) → t.st = s.st) ∧
    ((∀ x, i ≠ .ldVxK x) → t.waitForKey = s.waitForKey) ∧
    ((∀ x kk, i ≠ .rnd x kk) → t.rng = s.rng) ∧
    (i ≠ .cls → (∀ x y n, i ≠ .drw x y n) → t.fb = s.fb) ∧
    s.fault = none ∧ t.keys = s.keys ∧ t.keyFeed = s.keyFeed ∧ t.ticks = s.ticks

/-- 20_memory.md R36: every byte of memory is unchanged but those `Fx33` and `Fx55` store, at `I` and up. -/
def Obligations.OtherMemoryUnchanged : Prop :=
  ∀ (i : Instr) (s t : State) (a : Nat), Mem.wf s.mem = true → exec i s = .next t → t.fault = none →
    storesAt i s a = false → Mem.read t.mem a = Mem.read s.mem a

/-! ## Control transfer (41_control_flow.md) -/

/-- R75; that the error carries `pc` and opcode is decision D20 of the spec. -/
def Obligations.RetPops : Prop :=
  decode 0x00EE#16 = some .ret ∧
  (∀ s : State, 0 < s.sp.val → ∃ t, exec .ret s = .next t ∧
    s.stack[s.sp.val - 1]? = some t.pc ∧ t.sp.val = s.sp.val - 1 ∧ t = { s with sp := t.sp, pc := t.pc }) ∧
  (∀ s : State, s.sp.val = 0 → ∃ t, exec .ret s = .next t ∧ t.Raised .stackUnderflow s.pc 0x00EE#16)

/-- R76. -/
def Obligations.JpJumps : Prop :=
  ∀ (nnn : Addr) (s : State), decode (packNNN 0x1#4 nnn) = some (.jp nnn) ∧
    exec (.jp nnn) s = .next { s with pc := nnn }

/-- R77; `StackOverflow` is tested first (decision D19 of the spec). The range error is decision D2; that it carries exactly
this pc, opcode and value is the model's reading (log 4, D20). -/
def Obligations.CallPushes : Prop :=
  ∀ (nnn : Addr) (s : State),
    (s.sp.val < 16 → s.AdvanceFits → ∃ t, exec (.call nnn) s = .next t ∧
      t.stack[s.sp.val]? = some (s.pc + 2#12) ∧ (∀ j, j ≠ s.sp.val → t.stack[j]? = s.stack[j]?) ∧
      t.sp.val = s.sp.val + 1 ∧ t = { s with stack := t.stack, sp := t.sp, pc := nnn }) ∧
    (s.sp.val = 16 → ∃ t, exec (.call nnn) s = .next t ∧
      t.Raised .stackOverflow s.pc (encode (.call nnn))) ∧
    (s.sp.val < 16 → ¬ s.AdvanceFits → ∃ t, exec (.call nnn) s = .next t ∧
      t.Raised (.addressOutOfRange (s.pc.toNat + 2)) s.pc (encode (.call nnn)))

/-- R82 (b): "the only calling convention the design fixes is that `2nnn` pushes `pc + 2` and `00EE` pops it". -/
def Obligations.ReturnAfterCall : Prop :=
  ∀ (nnn : Addr) (s t u : State), exec (.call nnn) s = .next t → t.fault = none →
    u.stack = t.stack → u.sp = t.sp →
    ∃ w, exec .ret u = .next w ∧ w.pc = s.pc + 2#12 ∧ w.sp = s.sp

/-- R78, R79; the distance `pc + 4` is decision D25 of the spec. -/
def Obligations.ImmediateSkips : Prop :=
  ∀ (x : Nibble) (kk : Byte) (s : State),
    (s.reg x = kk → s.SkipFits → exec (.seImm x kk) s = .next { s with pc := s.pc + 4#12 }) ∧
    (s.reg x ≠ kk → s.AdvanceFits → exec (.seImm x kk) s = .next { s with pc := s.pc + 2#12 }) ∧
    (s.reg x ≠ kk → s.SkipFits → exec (.sneImm x kk) s = .next { s with pc := s.pc + 4#12 }) ∧
    (s.reg x = kk → s.AdvanceFits → exec (.sneImm x kk) s = .next { s with pc := s.pc + 2#12 })

/-- R80, R81; the distance `pc + 4` is decision D25 of the spec. -/
def Obligations.RegisterSkips : Prop :=
  ∀ (x y : Nibble) (s : State),
    (s.reg x = s.reg y → s.SkipFits → exec (.seReg x y) s = .next { s with pc := s.pc + 4#12 }) ∧
    (s.reg x ≠ s.reg y → s.AdvanceFits → exec (.seReg x y) s = .next { s with pc := s.pc + 2#12 }) ∧
    (s.reg x ≠ s.reg y → s.SkipFits → exec (.sneReg x y) s = .next { s with pc := s.pc + 4#12 }) ∧
    (s.reg x = s.reg y → s.AdvanceFits → exec (.sneReg x y) s = .next { s with pc := s.pc + 2#12 })

/-! ## The ALU (42_alu.md) -/

/-- R85. -/
def Obligations.LdImmLoads : Prop :=
  ∀ (x : Nibble) (kk : Byte) (s : State), s.AdvanceFits →
    decode (packXKK 0x6#4 x kk) = some (.ldImm x kk) ∧
    ∃ t, exec (.ldImm x kk) s = .next t ∧ (∀ r, t.reg r = if r = x then kk else s.reg r) ∧
      t = { s with v := t.v, pc := s.pc + 2#12 }

/-- R86: modulo 256, and no flag. -/
def Obligations.AddImmWraps : Prop :=
  ∀ (x : Nibble) (kk : Byte) (s : State), s.AdvanceFits →
    decode (packXKK 0x7#4 x kk) = some (.addImm x kk) ∧
    ∃ t, exec (.addImm x kk) s = .next t ∧ (t.reg x).toNat = ((s.reg x).toNat + kk.toNat) % 256 ∧
      (∀ r, r ≠ x → t.reg r = s.reg r) ∧ t = { s with v := t.v, pc := s.pc + 2#12 }

/-- R87. -/
def Obligations.LdRegCopies : Prop :=
  ∀ (x y : Nibble) (s : State), s.AdvanceFits →
    decode (packXYN 0x8#4 x y 0x0#4) = some (.ldReg x y) ∧
    ∃ t, exec (.ldReg x y) s = .next t ∧ (∀ r, t.reg r = if r = x then s.reg y else s.reg r) ∧
      t = { s with v := t.v, pc := s.pc + 2#12 }

/-- R88: `VF` keeps its value, which is decision D27 of the spec. -/
def Obligations.OrCombines : Prop :=
  ∀ (x y : Nibble) (s : State), s.AdvanceFits →
    ∃ t, exec (.or x y) s = .next t ∧ (∀ r, t.reg r = if r = x then s.reg x ||| s.reg y else s.reg r) ∧
      t = { s with v := t.v, pc := s.pc + 2#12 }

/-- R89: `VF` keeps its value, which is decision D27 of the spec. -/
def Obligations.AndCombines : Prop :=
  ∀ (x y : Nibble) (s : State), s.AdvanceFits →
    decode (packXYN 0x8#4 x y 0x2#4) = some (.and x y) ∧
    ∃ t, exec (.and x y) s = .next t ∧ (∀ r, t.reg r = if r = x then s.reg x &&& s.reg y else s.reg r) ∧
      t = { s with v := t.v, pc := s.pc + 2#12 }

/-- R90: `VF` keeps its value, which is decision D27 of the spec. -/
def Obligations.XorCombines : Prop :=
  ∀ (x y : Nibble) (s : State), s.AdvanceFits →
    decode (packXYN 0x8#4 x y 0x3#4) = some (.xor x y) ∧
    (∃ t, exec (.xor x y) s = .next t ∧ (∀ r, t.reg r = if r = x then s.reg x ^^^ s.reg y else s.reg r) ∧
      t = { s with v := t.v, pc := s.pc + 2#12 }) ∧
    ∃ u, exec (.xor x x) s = .next u ∧ u.reg x = 0x00#8

/-- R91, R97; that the flag wins when `x = 0xF` is decision D10 of the spec. -/
def Obligations.AddRegAndCarry : Prop :=
  ∀ (x y : Nibble) (s : State), s.AdvanceFits →
    ∃ t, exec (.addReg x y) s = .next t ∧
      t.reg 0xF#4 = (if (s.reg x).toNat + (s.reg y).toNat > 255 then 0x01#8 else 0x00#8) ∧
      (x ≠ 0xF#4 → (t.reg x).toNat = ((s.reg x).toNat + (s.reg y).toNat) % 256) ∧
      (∀ r, r ≠ x → r ≠ 0xF#4 → t.reg r = s.reg r) ∧ t = { s with v := t.v, pc := s.pc + 2#12 }

/-- R92, R94, R97: `VF` is NOT borrow; that it wins when `x = 0xF` is decision D10 of the spec. -/
def Obligations.SubtractionsAndNotBorrow : Prop :=
  ∀ (x y : Nibble) (s : State), s.AdvanceFits →
    (∃ t, exec (.sub x y) s = .next t ∧
      t.reg 0xF#4 = (if (s.reg x).toNat ≥ (s.reg y).toNat then 0x01#8 else 0x00#8) ∧
      (x ≠ 0xF#4 → ((t.reg x).toNat : Int) = ((s.reg x).toNat - (s.reg y).toNat : Int) % 256) ∧
      (∀ r, r ≠ x → r ≠ 0xF#4 → t.reg r = s.reg r) ∧ t = { s with v := t.v, pc := s.pc + 2#12 }) ∧
    (∃ t, exec (.subn x y) s = .next t ∧
      t.reg 0xF#4 = (if (s.reg y).toNat ≥ (s.reg x).toNat then 0x01#8 else 0x00#8) ∧
      (x ≠ 0xF#4 → ((t.reg x).toNat : Int) = ((s.reg y).toNat - (s.reg x).toNat : Int) % 256) ∧
      (∀ r, r ≠ x → r ≠ 0xF#4 → t.reg r = s.reg r) ∧ t = { s with v := t.v, pc := s.pc + 2#12 })

/-- R93, R95, R97: the source is `Vy`; that the flag wins when `x = 0xF` is decision D10 of the spec. -/
def Obligations.ShiftsAndBitOut : Prop :=
  ∀ (x y : Nibble) (s : State), s.AdvanceFits →
    (∃ t, exec (.shr x y) s = .next t ∧
      (t.reg 0xF#4).toNat = (s.reg y).toNat % 2 ∧
      (x ≠ 0xF#4 → (t.reg x).toNat = (s.reg y).toNat / 2) ∧
      (∀ r, r ≠ x → r ≠ 0xF#4 → t.reg r = s.reg r) ∧ t = { s with v := t.v, pc := s.pc + 2#12 }) ∧
    (∃ t, exec (.shl x y) s = .next t ∧
      (t.reg 0xF#4).toNat = (s.reg y).toNat / 128 ∧
      (x ≠ 0xF#4 → (t.reg x).toNat = (s.reg y).toNat * 2 % 256) ∧
      (∀ r, r ≠ x → r ≠ 0xF#4 → t.reg r = s.reg r) ∧ t = { s with v := t.v, pc := s.pc + 2#12 })

/-! ## `I` and memory (43_index_memory.md) -/

/-- R100. -/
def Obligations.LdILoads : Prop :=
  ∀ (nnn : Addr) (s : State), s.AdvanceFits →
    decode (packNNN 0xA#4 nnn) = some (.ldI nnn) ∧
    exec (.ldI nnn) s = .next { s with iReg := nnn, pc := s.pc + 2#12 }

/-- R101, R102: the sums; that `VF` is untouched is decision D13 of the spec (log 5). The range error is decision D2; that
it carries exactly this pc, opcode and value is the model's reading (log 4, D20). -/
def Obligations.IndexSums : Prop :=
  ∀ (nnn : Addr) (x : Nibble) (s : State),
    (nnn.toNat + (s.reg 0x0#4).toNat ≤ 0xFFF → s.AdvanceFits → ∃ t, exec (.ldIV0 nnn) s = .next t ∧
      t.iReg.toNat = nnn.toNat + (s.reg 0x0#4).toNat ∧ t = { s with iReg := t.iReg, pc := s.pc + 2#12 }) ∧
    (0xFFF < nnn.toNat + (s.reg 0x0#4).toNat → ∃ t, exec (.ldIV0 nnn) s = .next t ∧
      t.Raised (.addressOutOfRange (nnn.toNat + (s.reg 0x0#4).toNat)) s.pc (encode (.ldIV0 nnn))) ∧
    (s.iReg.toNat + (s.reg x).toNat ≤ 0xFFF → s.AdvanceFits → ∃ t, exec (.addIVx x) s = .next t ∧
      t.iReg.toNat = s.iReg.toNat + (s.reg x).toNat ∧ t = { s with iReg := t.iReg, pc := s.pc + 2#12 }) ∧
    (0xFFF < s.iReg.toNat + (s.reg x).toNat → ∃ t, exec (.addIVx x) s = .next t ∧
      t.Raised (.addressOutOfRange (s.iReg.toNat + (s.reg x).toNat)) s.pc (encode (.addIVx x)))

/-- R103; that a digit above 15 is not masked is decision D11 of the spec. -/
def Obligations.LdFPointsAtGlyph : Prop :=
  ∀ (x : Nibble) (s : State), s.AdvanceFits →
    ∃ t, exec (.ldFVx x) s = .next t ∧ t.iReg.toNat = 0x1B0 + 5 * (s.reg x).toNat ∧
      t = { s with iReg := t.iReg, pc := s.pc + 2#12 }

/-- R104; the order of the digits is decision D12 of the spec (log 5), that any address may be written D14, the range error
D2; that the error carries exactly this pc, opcode and first offending value is the model's reading (log 4, D20). -/
def Obligations.LdBStoresDigits : Prop :=
  ∀ (x : Nibble) (s : State),
    (Mem.wf s.mem = true → s.base + 2 ≤ 0xFFF → s.AdvanceFits → ∃ t, exec (.ldBVx x) s = .next t ∧
      (∃ h d o : Nat, h ≤ 9 ∧ d ≤ 9 ∧ o ≤ 9 ∧ (s.reg x).toNat = 100 * h + 10 * d + o ∧
        (Mem.read t.mem s.base).toNat = h ∧ (Mem.read t.mem (s.base + 1)).toNat = d ∧
        (Mem.read t.mem (s.base + 2)).toNat = o) ∧
      (∀ a, a < s.base ∨ s.base + 2 < a → Mem.read t.mem a = Mem.read s.mem a) ∧
      t = { s with mem := t.mem, pc := s.pc + 2#12 }) ∧
    (0xFFF < s.base + 2 → ∃ t, exec (.ldBVx x) s = .next t ∧
      t.Raised (.addressOutOfRange 0x1000) s.pc (encode (.ldBVx x)))

/-- R105; that any address may be written is decision D14 of the spec, the range error D2; that the error carries exactly
this pc, opcode and first offending value, also after bytes were written, is the model's reading (log 4, D20). -/
def Obligations.StRegsStoresAndAdvances : Prop :=
  ∀ (x : Nibble) (s : State),
    (Mem.wf s.mem = true → s.base + x.toNat + 1 ≤ 0xFFF → s.AdvanceFits → ∃ t, exec (.stRegs x) s = .next t ∧
      (∀ r : Nibble, r.toNat ≤ x.toNat → Mem.read t.mem (s.base + r.toNat) = s.reg r) ∧
      (∀ a, a < s.base ∨ s.base + x.toNat < a → Mem.read t.mem a = Mem.read s.mem a) ∧
      t.iReg.toNat = s.base + x.toNat + 1 ∧ t = { s with mem := t.mem, iReg := t.iReg, pc := s.pc + 2#12 }) ∧
    (0xFFF < s.base + x.toNat + 1 → ∃ t, exec (.stRegs x) s = .next t ∧
      t.Raised (.addressOutOfRange 0x1000) s.pc (encode (.stRegs x)))

/-- R106; the range error is decision D2 of the spec; that it carries exactly this pc, opcode and first offending value,
also after registers were written, is the model's reading (log 4, D20). -/
def Obligations.LdRegsLoadsAndAdvances : Prop :=
  ∀ (x : Nibble) (s : State),
    (s.base + x.toNat + 1 ≤ 0xFFF → s.AdvanceFits → ∃ t, exec (.ldRegs x) s = .next t ∧
      (∀ r : Nibble, t.reg r = if r.toNat ≤ x.toNat then Mem.read s.mem (s.base + r.toNat) else s.reg r) ∧
      t.iReg.toNat = s.base + x.toNat + 1 ∧ t = { s with v := t.v, iReg := t.iReg, pc := s.pc + 2#12 }) ∧
    (0xFFF < s.base + x.toNat + 1 → ∃ t, exec (.ldRegs x) s = .next t ∧
      t.Raised (.addressOutOfRange 0x1000) s.pc (encode (.ldRegs x)))

/-! ## Random byte (44_random.md) -/

/-- R111: for every generator (log 8), one byte is drawn (decision D31 of the spec) and masked, and every bit outside `kk`
is 0. -/
def Obligations.RndDrawsAndMasks : Prop :=
  ∀ (x : Nibble) (kk : Byte) (s : State), s.AdvanceFits →
    ∃ t, exec (.rnd x kk) s = .next t ∧ t.reg x = (Config.rngNext s.rng).1 &&& kk ∧ t.reg x &&& ~~~kk = 0x00#8 ∧
      t.rng = (Config.rngNext s.rng).2 ∧ (∀ r, r ≠ x → t.reg r = s.reg r) ∧
      t = { s with v := t.v, rng := t.rng, pc := s.pc + 2#12 }

/-! ## Display (45_display.md) -/

/-- R116, R113. -/
def Obligations.ClsBlanksScreen : Prop :=
  ∀ s : State, s.AdvanceFits → decode 0x00E0#16 = some .cls ∧
    ∃ t, exec .cls s = .next t ∧ (∀ x y, t.getPixel x y = false) ∧ t = { s with fb := t.fb, pc := s.pc + 2#12 }

/-- R117, R114: exactly the pixels a 1 bit of the sprite lands on are inverted, and `VF` is 1 iff one of them was on; so
`n = 0` draws nothing and sets `VF` to 0. Wrap, bit order and `n = 0` are decisions D8, D33 and D9 of the spec (log 5),
the range error decision D2; that it carries exactly this pc, opcode and first offending value is the model's reading
(log 4, D20). -/
def Obligations.DrwInvertsSpritePixels : Prop :=
  ∀ (x y n : Nibble) (s : State),
    (s.base + n.toNat ≤ 0x1000 → s.AdvanceFits → ∃ t, exec (.drw x y n) s = .next t ∧
      (∀ px py, px < 64 → py < 32 → (t.getPixel px py ≠ s.getPixel px py ↔ s.SpriteHits x y n px py)) ∧
      (t.reg 0xF#4 = 0x00#8 ∨ t.reg 0xF#4 = 0x01#8) ∧
      (t.reg 0xF#4 = 0x01#8 ↔
        ∃ px py, px < 64 ∧ py < 32 ∧ s.getPixel px py = true ∧ t.getPixel px py = false) ∧
      (∀ r, r ≠ 0xF#4 → t.reg r = s.reg r) ∧ t = { s with v := t.v, fb := t.fb, pc := s.pc + 2#12 }) ∧
    (0x1000 < s.base + n.toNat → ∃ t, exec (.drw x y n) s = .next t ∧
      t.Raised (.addressOutOfRange 0x1000) s.pc (encode (.drw x y n)))

/-- R117, R114: "Drawing the same sprite twice at the same place restores the framebuffer"; the second draw collides iff
the sprite lands on a pixel that was off before the first (on a blank screen: iff it has a 1 bit). R117's "if the sprite
has at least one 1 bit" leaves that condition out; its pseudocode gives it (log 12). Wrap, bit order and `n = 0` are decisions
D8, D33 and D9 of the spec (log 5). -/
def Obligations.DrwTwiceRestores : Prop :=
  ∀ (x y n : Nibble) (s t : State), x ≠ 0xF#4 → y ≠ 0xF#4 → exec (.drw x y n) s = .next t → t.fault = none →
    ∃ u, exec (.drw x y n) { t with pc := s.pc } = .next u ∧ u.fault = none ∧
      (∀ px py, px < 64 → py < 32 → u.getPixel px py = s.getPixel px py) ∧
      (u.reg 0xF#4 = 0x01#8 ↔
        ∃ px py, px < 64 ∧ py < 32 ∧ s.SpriteHits x y n px py ∧ s.getPixel px py = false)

/-! ## Keys and timers (46_keys_timers.md) -/

/-- R121, R122 for a register of at most 15 (`KeyAboveFifteenRaises` is the other case); the distance `pc + 4` is decision
D25 of the spec. -/
def Obligations.KeySkips : Prop :=
  ∀ (x : Nibble) (s : State), (s.reg x).toNat ≤ 15 →
    (s.keys.getLsbD (s.reg x).toNat = true → s.SkipFits →
      exec (.skp x) s = .next { s with pc := s.pc + 4#12 }) ∧
    (s.keys.getLsbD (s.reg x).toNat = false → s.AdvanceFits →
      exec (.skp x) s = .next { s with pc := s.pc + 2#12 }) ∧
    (s.keys.getLsbD (s.reg x).toNat = false → s.SkipFits →
      exec (.sknp x) s = .next { s with pc := s.pc + 4#12 }) ∧
    (s.keys.getLsbD (s.reg x).toNat = true → s.AdvanceFits →
      exec (.sknp x) s = .next { s with pc := s.pc + 2#12 })

/-- R123: what is read is `DT` after this tick's decrement. -/
def Obligations.LdVxDtReadsTimer : Prop :=
  ∀ (x : Nibble) (s : State), s.AdvanceFits →
    decode (packXKK 0xF#4 x 0x07#8) = some (.ldVxDt x) ∧
    (∃ t, exec (.ldVxDt x) s = .next t ∧ (∀ r, t.reg r = if r = x then s.dt else s.reg r) ∧
      t = { s with v := t.v, pc := s.pc + 2#12 }) ∧
    (s.Running → s.Fetches (packXKK 0xF#4 x 0x07#8) → ∃ t, step s = .next t ∧
      (t.reg x).toNat = s.dt.toNat - 1 ∧ t.dt.toNat = s.dt.toNat - 1)

/-- R124 (decisions D5 to D7 of the spec): the wait is set, and nothing else: `V[x]` is not written and `keys` plays no
part. -/
def Obligations.LdVxKWaits : Prop :=
  ∀ (x : Nibble) (s : State), s.AdvanceFits →
    exec (.ldVxK x) s = .next { s with waitForKey := some x, pc := s.pc + 2#12 }

/-- R125: the write comes after this tick's decrement. -/
def Obligations.LdDtVxSetsTimer : Prop :=
  ∀ (x : Nibble) (s : State), s.AdvanceFits →
    decode (packXKK 0xF#4 x 0x15#8) = some (.ldDtVx x) ∧
    exec (.ldDtVx x) s = .next { s with dt := s.reg x, pc := s.pc + 2#12 } ∧
    (s.Running → s.Fetches (packXKK 0xF#4 x 0x15#8) → ∃ t, step s = .next t ∧ t.dt = s.reg x)

/-- R126, 10_state.md R17: as R125, and `sound_active` is `ST > 0` afterwards. -/
def Obligations.LdStVxSetsTimer : Prop :=
  ∀ (x : Nibble) (s : State), s.AdvanceFits →
    decode (packXKK 0xF#4 x 0x18#8) = some (.ldStVx x) ∧
    exec (.ldStVx x) s = .next { s with st := s.reg x, pc := s.pc + 2#12 } ∧
    (s.Running → s.Fetches (packXKK 0xF#4 x 0x18#8) → ∃ t, step s = .next t ∧ t.st = s.reg x ∧
      t.soundActive = decide (0 < (s.reg x).toNat))
end

