-- ==== Sys2Proof/Laws/Decode.lean ====
section
/-! SUPPORT. The laws of opcode fields and packed words, as numbers: each field of a packed word is what was packed, and a
word is the packing of its fields. -/

namespace Sys2Proof

/-! ## Fields and packed words as numbers -/

theorem toNat_append_eq {m n : Nat} (a : BitVec m) (b : BitVec n) : (a ++ b).toNat = a.toNat * 2 ^ n + b.toNat := by
  rw [BitVec.toNat_append, ← Nat.shiftLeft_add_eq_or_of_lt b.isLt, Nat.shiftLeft_eq]

theorem opN0_toNat (op : Opcode) : (opN0 op).toNat = op.toNat / 4096 % 16 := by
  simp [opN0, BitVec.extractLsb'_toNat, Nat.shiftRight_eq_div_pow]

theorem opX_toNat (op : Opcode) : (opX op).toNat = op.toNat / 256 % 16 := by
  simp [opX, BitVec.extractLsb'_toNat, Nat.shiftRight_eq_div_pow]

theorem opY_toNat (op : Opcode) : (opY op).toNat = op.toNat / 16 % 16 := by
  simp [opY, BitVec.extractLsb'_toNat, Nat.shiftRight_eq_div_pow]

theorem opN3_toNat (op : Opcode) : (opN3 op).toNat = op.toNat % 16 := by
  simp [opN3, BitVec.extractLsb'_toNat]

theorem opKk_toNat (op : Opcode) : (opKk op).toNat = op.toNat % 256 := by
  simp [opKk, BitVec.extractLsb'_toNat]

theorem opNnn_toNat (op : Opcode) : (opNnn op).toNat = op.toNat % 4096 := by
  simp [opNnn, BitVec.extractLsb'_toNat]

theorem highByte_toNat (op : Opcode) : (highByte op).toNat = op.toNat / 256 % 256 := by
  simp [highByte, BitVec.extractLsb'_toNat, Nat.shiftRight_eq_div_pow]

theorem lowByte_toNat (op : Opcode) : (lowByte op).toNat = op.toNat % 256 := by
  simp [lowByte, BitVec.extractLsb'_toNat]

theorem packNNN_toNat (a : Nibble) (nnn : Addr) : (packNNN a nnn).toNat = a.toNat * 4096 + nnn.toNat :=
  toNat_append_eq a nnn

theorem packXKK_toNat (a x : Nibble) (kk : Byte) :
    (packXKK a x kk).toNat = (a.toNat * 16 + x.toNat) * 256 + kk.toNat := by
  have h := toNat_append_eq (a ++ x) kk
  rwa [toNat_append_eq a x] at h

theorem packXYN_toNat (a x y n : Nibble) :
    (packXYN a x y n).toNat = ((a.toNat * 16 + x.toNat) * 16 + y.toNat) * 16 + n.toNat := by
  have h := toNat_append_eq (a ++ x ++ y) n
  rwa [toNat_append_eq (a ++ x) y, toNat_append_eq a x] at h

theorem joinBytes_toNat (hi lo : Byte) : (joinBytes hi lo).toNat = hi.toNat * 256 + lo.toNat :=
  toNat_append_eq hi lo

/-! ## The fields of a packed word -/

@[simp] theorem opN0_packNNN (a : Nibble) (nnn : Addr) : opN0 (packNNN a nnn) = a := by
  apply BitVec.eq_of_toNat_eq; rw [opN0_toNat, packNNN_toNat]; omega

@[simp] theorem opNnn_packNNN (a : Nibble) (nnn : Addr) : opNnn (packNNN a nnn) = nnn := by
  apply BitVec.eq_of_toNat_eq; rw [opNnn_toNat, packNNN_toNat]; omega

@[simp] theorem opN0_packXKK (a x : Nibble) (kk : Byte) : opN0 (packXKK a x kk) = a := by
  apply BitVec.eq_of_toNat_eq; rw [opN0_toNat, packXKK_toNat]; omega

@[simp] theorem opX_packXKK (a x : Nibble) (kk : Byte) : opX (packXKK a x kk) = x := by
  apply BitVec.eq_of_toNat_eq; rw [opX_toNat, packXKK_toNat]; omega

@[simp] theorem opKk_packXKK (a x : Nibble) (kk : Byte) : opKk (packXKK a x kk) = kk := by
  apply BitVec.eq_of_toNat_eq; rw [opKk_toNat, packXKK_toNat]; omega

@[simp] theorem opN0_packXYN (a x y n : Nibble) : opN0 (packXYN a x y n) = a := by
  apply BitVec.eq_of_toNat_eq; rw [opN0_toNat, packXYN_toNat]; omega

@[simp] theorem opX_packXYN (a x y n : Nibble) : opX (packXYN a x y n) = x := by
  apply BitVec.eq_of_toNat_eq; rw [opX_toNat, packXYN_toNat]; omega

@[simp] theorem opY_packXYN (a x y n : Nibble) : opY (packXYN a x y n) = y := by
  apply BitVec.eq_of_toNat_eq; rw [opY_toNat, packXYN_toNat]; omega

@[simp] theorem opN3_packXYN (a x y n : Nibble) : opN3 (packXYN a x y n) = n := by
  apply BitVec.eq_of_toNat_eq; rw [opN3_toNat, packXYN_toNat]; omega

/-! ## A word is the packing of its fields, in each format (30_encoding.md rule R46: the fields overlap) -/

theorem packNNN_fields (op : Opcode) : packNNN (opN0 op) (opNnn op) = op := by
  apply BitVec.eq_of_toNat_eq; rw [packNNN_toNat, opN0_toNat, opNnn_toNat]; omega

theorem packXKK_fields (op : Opcode) : packXKK (opN0 op) (opX op) (opKk op) = op := by
  apply BitVec.eq_of_toNat_eq; rw [packXKK_toNat, opN0_toNat, opX_toNat, opKk_toNat]; omega

theorem packXYN_fields (op : Opcode) : packXYN (opN0 op) (opX op) (opY op) (opN3 op) = op := by
  apply BitVec.eq_of_toNat_eq; rw [packXYN_toNat, opN0_toNat, opX_toNat, opY_toNat, opN3_toNat]; omega

/-- The two bytes of an opcode make it again (20_memory.md rule R34). -/
theorem joinBytes_high_low (op : Opcode) : joinBytes (highByte op) (lowByte op) = op := by
  apply BitVec.eq_of_toNat_eq; rw [joinBytes_toNat, highByte_toNat, lowByte_toNat]; omega

end Sys2Proof
end

