-- ==== Sys2Proof/Laws/State.lean ====
section
/-! SUPPORT. One lemma per field per update, true by rfl: what each named update of the state does to each field. -/

namespace Sys2Proof.Machine

/-! ### `State.setReg` -/

@[simp] theorem State.setReg_v (s : State) (r : Nibble) (b : Byte) : (s.setReg r b).v = s.v.set r.toNat b r.isLt := rfl
@[simp] theorem State.setReg_iReg (s : State) (r : Nibble) (b : Byte) : (s.setReg r b).iReg = s.iReg := rfl
@[simp] theorem State.setReg_pc (s : State) (r : Nibble) (b : Byte) : (s.setReg r b).pc = s.pc := rfl
@[simp] theorem State.setReg_stack (s : State) (r : Nibble) (b : Byte) : (s.setReg r b).stack = s.stack := rfl
@[simp] theorem State.setReg_sp (s : State) (r : Nibble) (b : Byte) : (s.setReg r b).sp = s.sp := rfl
@[simp] theorem State.setReg_mem (s : State) (r : Nibble) (b : Byte) : (s.setReg r b).mem = s.mem := rfl
@[simp] theorem State.setReg_dt (s : State) (r : Nibble) (b : Byte) : (s.setReg r b).dt = s.dt := rfl
@[simp] theorem State.setReg_st (s : State) (r : Nibble) (b : Byte) : (s.setReg r b).st = s.st := rfl
@[simp] theorem State.setReg_waitForKey (s : State) (r : Nibble) (b : Byte) : (s.setReg r b).waitForKey = s.waitForKey := rfl
@[simp] theorem State.setReg_rng (s : State) (r : Nibble) (b : Byte) : (s.setReg r b).rng = s.rng := rfl
@[simp] theorem State.setReg_fb (s : State) (r : Nibble) (b : Byte) : (s.setReg r b).fb = s.fb := rfl
@[simp] theorem State.setReg_fault (s : State) (r : Nibble) (b : Byte) : (s.setReg r b).fault = s.fault := rfl
@[simp] theorem State.setReg_keys (s : State) (r : Nibble) (b : Byte) : (s.setReg r b).keys = s.keys := rfl
@[simp] theorem State.setReg_keyFeed (s : State) (r : Nibble) (b : Byte) : (s.setReg r b).keyFeed = s.keyFeed := rfl
@[simp] theorem State.setReg_ticks (s : State) (r : Nibble) (b : Byte) : (s.setReg r b).ticks = s.ticks := rfl

/-! ### `State.setFlag` -/

@[simp] theorem State.setFlag_v (s : State) (c : Bool) : (s.setFlag c).v = s.v.set vf.toNat (flagByte c) vf.isLt := rfl
@[simp] theorem State.setFlag_iReg (s : State) (c : Bool) : (s.setFlag c).iReg = s.iReg := rfl
@[simp] theorem State.setFlag_pc (s : State) (c : Bool) : (s.setFlag c).pc = s.pc := rfl
@[simp] theorem State.setFlag_stack (s : State) (c : Bool) : (s.setFlag c).stack = s.stack := rfl
@[simp] theorem State.setFlag_sp (s : State) (c : Bool) : (s.setFlag c).sp = s.sp := rfl
@[simp] theorem State.setFlag_mem (s : State) (c : Bool) : (s.setFlag c).mem = s.mem := rfl
@[simp] theorem State.setFlag_dt (s : State) (c : Bool) : (s.setFlag c).dt = s.dt := rfl
@[simp] theorem State.setFlag_st (s : State) (c : Bool) : (s.setFlag c).st = s.st := rfl
@[simp] theorem State.setFlag_waitForKey (s : State) (c : Bool) : (s.setFlag c).waitForKey = s.waitForKey := rfl
@[simp] theorem State.setFlag_rng (s : State) (c : Bool) : (s.setFlag c).rng = s.rng := rfl
@[simp] theorem State.setFlag_fb (s : State) (c : Bool) : (s.setFlag c).fb = s.fb := rfl
@[simp] theorem State.setFlag_fault (s : State) (c : Bool) : (s.setFlag c).fault = s.fault := rfl
@[simp] theorem State.setFlag_keys (s : State) (c : Bool) : (s.setFlag c).keys = s.keys := rfl
@[simp] theorem State.setFlag_keyFeed (s : State) (c : Bool) : (s.setFlag c).keyFeed = s.keyFeed := rfl
@[simp] theorem State.setFlag_ticks (s : State) (c : Bool) : (s.setFlag c).ticks = s.ticks := rfl

/-! ### `State.setResultFlag` -/

@[simp] theorem State.setResultFlag_v (s : State) (x : Nibble) (b : Byte) (c : Bool) : (s.setResultFlag x b c).v = (s.v.set x.toNat b x.isLt).set vf.toNat (flagByte c) vf.isLt := rfl
@[simp] theorem State.setResultFlag_iReg (s : State) (x : Nibble) (b : Byte) (c : Bool) : (s.setResultFlag x b c).iReg = s.iReg := rfl
@[simp] theorem State.setResultFlag_pc (s : State) (x : Nibble) (b : Byte) (c : Bool) : (s.setResultFlag x b c).pc = s.pc := rfl
@[simp] theorem State.setResultFlag_stack (s : State) (x : Nibble) (b : Byte) (c : Bool) : (s.setResultFlag x b c).stack = s.stack := rfl
@[simp] theorem State.setResultFlag_sp (s : State) (x : Nibble) (b : Byte) (c : Bool) : (s.setResultFlag x b c).sp = s.sp := rfl
@[simp] theorem State.setResultFlag_mem (s : State) (x : Nibble) (b : Byte) (c : Bool) : (s.setResultFlag x b c).mem = s.mem := rfl
@[simp] theorem State.setResultFlag_dt (s : State) (x : Nibble) (b : Byte) (c : Bool) : (s.setResultFlag x b c).dt = s.dt := rfl
@[simp] theorem State.setResultFlag_st (s : State) (x : Nibble) (b : Byte) (c : Bool) : (s.setResultFlag x b c).st = s.st := rfl
@[simp] theorem State.setResultFlag_waitForKey (s : State) (x : Nibble) (b : Byte) (c : Bool) : (s.setResultFlag x b c).waitForKey = s.waitForKey := rfl
@[simp] theorem State.setResultFlag_rng (s : State) (x : Nibble) (b : Byte) (c : Bool) : (s.setResultFlag x b c).rng = s.rng := rfl
@[simp] theorem State.setResultFlag_fb (s : State) (x : Nibble) (b : Byte) (c : Bool) : (s.setResultFlag x b c).fb = s.fb := rfl
@[simp] theorem State.setResultFlag_fault (s : State) (x : Nibble) (b : Byte) (c : Bool) : (s.setResultFlag x b c).fault = s.fault := rfl
@[simp] theorem State.setResultFlag_keys (s : State) (x : Nibble) (b : Byte) (c : Bool) : (s.setResultFlag x b c).keys = s.keys := rfl
@[simp] theorem State.setResultFlag_keyFeed (s : State) (x : Nibble) (b : Byte) (c : Bool) : (s.setResultFlag x b c).keyFeed = s.keyFeed := rfl
@[simp] theorem State.setResultFlag_ticks (s : State) (x : Nibble) (b : Byte) (c : Bool) : (s.setResultFlag x b c).ticks = s.ticks := rfl

/-! ### `State.drawRandom` -/

@[simp] theorem State.drawRandom_v (s : State) : (s.drawRandom).v = s.v := rfl
@[simp] theorem State.drawRandom_iReg (s : State) : (s.drawRandom).iReg = s.iReg := rfl
@[simp] theorem State.drawRandom_pc (s : State) : (s.drawRandom).pc = s.pc := rfl
@[simp] theorem State.drawRandom_stack (s : State) : (s.drawRandom).stack = s.stack := rfl
@[simp] theorem State.drawRandom_sp (s : State) : (s.drawRandom).sp = s.sp := rfl
@[simp] theorem State.drawRandom_mem (s : State) : (s.drawRandom).mem = s.mem := rfl
@[simp] theorem State.drawRandom_dt (s : State) : (s.drawRandom).dt = s.dt := rfl
@[simp] theorem State.drawRandom_st (s : State) : (s.drawRandom).st = s.st := rfl
@[simp] theorem State.drawRandom_waitForKey (s : State) : (s.drawRandom).waitForKey = s.waitForKey := rfl
@[simp] theorem State.drawRandom_rng (s : State) : (s.drawRandom).rng = (Config.rngNext s.rng).2 := rfl
@[simp] theorem State.drawRandom_fb (s : State) : (s.drawRandom).fb = s.fb := rfl
@[simp] theorem State.drawRandom_fault (s : State) : (s.drawRandom).fault = s.fault := rfl
@[simp] theorem State.drawRandom_keys (s : State) : (s.drawRandom).keys = s.keys := rfl
@[simp] theorem State.drawRandom_keyFeed (s : State) : (s.drawRandom).keyFeed = s.keyFeed := rfl
@[simp] theorem State.drawRandom_ticks (s : State) : (s.drawRandom).ticks = s.ticks := rfl

/-! ### `State.stepTimers` -/

@[simp] theorem State.stepTimers_v (s : State) : (s.stepTimers).v = s.v := rfl
@[simp] theorem State.stepTimers_iReg (s : State) : (s.stepTimers).iReg = s.iReg := rfl
@[simp] theorem State.stepTimers_pc (s : State) : (s.stepTimers).pc = s.pc := rfl
@[simp] theorem State.stepTimers_stack (s : State) : (s.stepTimers).stack = s.stack := rfl
@[simp] theorem State.stepTimers_sp (s : State) : (s.stepTimers).sp = s.sp := rfl
@[simp] theorem State.stepTimers_mem (s : State) : (s.stepTimers).mem = s.mem := rfl
@[simp] theorem State.stepTimers_dt (s : State) : (s.stepTimers).dt = countDown s.dt := rfl
@[simp] theorem State.stepTimers_st (s : State) : (s.stepTimers).st = countDown s.st := rfl
@[simp] theorem State.stepTimers_waitForKey (s : State) : (s.stepTimers).waitForKey = s.waitForKey := rfl
@[simp] theorem State.stepTimers_rng (s : State) : (s.stepTimers).rng = s.rng := rfl
@[simp] theorem State.stepTimers_fb (s : State) : (s.stepTimers).fb = s.fb := rfl
@[simp] theorem State.stepTimers_fault (s : State) : (s.stepTimers).fault = s.fault := rfl
@[simp] theorem State.stepTimers_keys (s : State) : (s.stepTimers).keys = s.keys := rfl
@[simp] theorem State.stepTimers_keyFeed (s : State) : (s.stepTimers).keyFeed = s.keyFeed := rfl
@[simp] theorem State.stepTimers_ticks (s : State) : (s.stepTimers).ticks = s.ticks := rfl

/-! ### `State.sampleKeys` -/

@[simp] theorem State.sampleKeys_v (s : State) : (s.sampleKeys).v = s.v := rfl
@[simp] theorem State.sampleKeys_iReg (s : State) : (s.sampleKeys).iReg = s.iReg := rfl
@[simp] theorem State.sampleKeys_pc (s : State) : (s.sampleKeys).pc = s.pc := rfl
@[simp] theorem State.sampleKeys_stack (s : State) : (s.sampleKeys).stack = s.stack := rfl
@[simp] theorem State.sampleKeys_sp (s : State) : (s.sampleKeys).sp = s.sp := rfl
@[simp] theorem State.sampleKeys_mem (s : State) : (s.sampleKeys).mem = s.mem := rfl
@[simp] theorem State.sampleKeys_dt (s : State) : (s.sampleKeys).dt = s.dt := rfl
@[simp] theorem State.sampleKeys_st (s : State) : (s.sampleKeys).st = s.st := rfl
@[simp] theorem State.sampleKeys_waitForKey (s : State) : (s.sampleKeys).waitForKey = s.waitForKey := rfl
@[simp] theorem State.sampleKeys_rng (s : State) : (s.sampleKeys).rng = s.rng := rfl
@[simp] theorem State.sampleKeys_fb (s : State) : (s.sampleKeys).fb = s.fb := rfl
@[simp] theorem State.sampleKeys_fault (s : State) : (s.sampleKeys).fault = s.fault := rfl
@[simp] theorem State.sampleKeys_keys (s : State) : (s.sampleKeys).keys = s.nextKeys := rfl
@[simp] theorem State.sampleKeys_keyFeed (s : State) : (s.sampleKeys).keyFeed = s.keyFeed.tail := rfl
@[simp] theorem State.sampleKeys_ticks (s : State) : (s.sampleKeys).ticks = s.ticks + 1 := rfl

/-! ### `State.drawSprite` -/

@[simp] theorem State.drawSprite_v (s : State) (x y : Nibble) (rows : List Byte) : (s.drawSprite x y rows).v = s.v.set vf.toNat (flagByte (Framebuffer.draw s.fb (s.reg x) (s.reg y) rows).2) vf.isLt := rfl
@[simp] theorem State.drawSprite_iReg (s : State) (x y : Nibble) (rows : List Byte) : (s.drawSprite x y rows).iReg = s.iReg := rfl
@[simp] theorem State.drawSprite_pc (s : State) (x y : Nibble) (rows : List Byte) : (s.drawSprite x y rows).pc = s.pc := rfl
@[simp] theorem State.drawSprite_stack (s : State) (x y : Nibble) (rows : List Byte) : (s.drawSprite x y rows).stack = s.stack := rfl
@[simp] theorem State.drawSprite_sp (s : State) (x y : Nibble) (rows : List Byte) : (s.drawSprite x y rows).sp = s.sp := rfl
@[simp] theorem State.drawSprite_mem (s : State) (x y : Nibble) (rows : List Byte) : (s.drawSprite x y rows).mem = s.mem := rfl
@[simp] theorem State.drawSprite_dt (s : State) (x y : Nibble) (rows : List Byte) : (s.drawSprite x y rows).dt = s.dt := rfl
@[simp] theorem State.drawSprite_st (s : State) (x y : Nibble) (rows : List Byte) : (s.drawSprite x y rows).st = s.st := rfl
@[simp] theorem State.drawSprite_waitForKey (s : State) (x y : Nibble) (rows : List Byte) : (s.drawSprite x y rows).waitForKey = s.waitForKey := rfl
@[simp] theorem State.drawSprite_rng (s : State) (x y : Nibble) (rows : List Byte) : (s.drawSprite x y rows).rng = s.rng := rfl
@[simp] theorem State.drawSprite_fb (s : State) (x y : Nibble) (rows : List Byte) : (s.drawSprite x y rows).fb = (Framebuffer.draw s.fb (s.reg x) (s.reg y) rows).1 := rfl
@[simp] theorem State.drawSprite_fault (s : State) (x y : Nibble) (rows : List Byte) : (s.drawSprite x y rows).fault = s.fault := rfl
@[simp] theorem State.drawSprite_keys (s : State) (x y : Nibble) (rows : List Byte) : (s.drawSprite x y rows).keys = s.keys := rfl
@[simp] theorem State.drawSprite_keyFeed (s : State) (x y : Nibble) (rows : List Byte) : (s.drawSprite x y rows).keyFeed = s.keyFeed := rfl
@[simp] theorem State.drawSprite_ticks (s : State) (x y : Nibble) (rows : List Byte) : (s.drawSprite x y rows).ticks = s.ticks := rfl

/-! ### `State.raise` -/

@[simp] theorem State.raise_v (s : State) (k : ErrorKind) (op : Opcode) : (s.raise k op).v = (Config.wreckage s.ticks).v := rfl
@[simp] theorem State.raise_iReg (s : State) (k : ErrorKind) (op : Opcode) : (s.raise k op).iReg = (Config.wreckage s.ticks).iReg := rfl
@[simp] theorem State.raise_pc (s : State) (k : ErrorKind) (op : Opcode) : (s.raise k op).pc = (Config.wreckage s.ticks).pc := rfl
@[simp] theorem State.raise_stack (s : State) (k : ErrorKind) (op : Opcode) : (s.raise k op).stack = (Config.wreckage s.ticks).stack := rfl
@[simp] theorem State.raise_sp (s : State) (k : ErrorKind) (op : Opcode) : (s.raise k op).sp = (Config.wreckage s.ticks).sp := rfl
@[simp] theorem State.raise_mem (s : State) (k : ErrorKind) (op : Opcode) : (s.raise k op).mem = Mem.ofCells (Config.wreckage s.ticks).cells := rfl
@[simp] theorem State.raise_dt (s : State) (k : ErrorKind) (op : Opcode) : (s.raise k op).dt = (Config.wreckage s.ticks).dt := rfl
@[simp] theorem State.raise_st (s : State) (k : ErrorKind) (op : Opcode) : (s.raise k op).st = (Config.wreckage s.ticks).st := rfl
@[simp] theorem State.raise_waitForKey (s : State) (k : ErrorKind) (op : Opcode) : (s.raise k op).waitForKey = (Config.wreckage s.ticks).waitForKey := rfl
@[simp] theorem State.raise_rng (s : State) (k : ErrorKind) (op : Opcode) : (s.raise k op).rng = (Config.wreckage s.ticks).rng := rfl
@[simp] theorem State.raise_fb (s : State) (k : ErrorKind) (op : Opcode) : (s.raise k op).fb = (Config.wreckage s.ticks).fb := rfl
@[simp] theorem State.raise_fault (s : State) (k : ErrorKind) (op : Opcode) : (s.raise k op).fault = some ⟨k, s.pc, op⟩ := rfl
@[simp] theorem State.raise_keys (s : State) (k : ErrorKind) (op : Opcode) : (s.raise k op).keys = s.keys := rfl
@[simp] theorem State.raise_keyFeed (s : State) (k : ErrorKind) (op : Opcode) : (s.raise k op).keyFeed = s.keyFeed := rfl
@[simp] theorem State.raise_ticks (s : State) (k : ErrorKind) (op : Opcode) : (s.raise k op).ticks = s.ticks := rfl

/-! ### The values of `State.reset` -/

@[simp] theorem State.reset_v : State.reset.v = Vector.replicate 16 0x00#8 := rfl
@[simp] theorem State.reset_iReg : State.reset.iReg = 0x000#12 := rfl
@[simp] theorem State.reset_pc : State.reset.pc = 0x200#12 := rfl
@[simp] theorem State.reset_stack : State.reset.stack = Vector.replicate 16 0x000#12 := rfl
@[simp] theorem State.reset_sp : State.reset.sp = 0 := rfl
@[simp] theorem State.reset_mem : State.reset.mem = [] := rfl
@[simp] theorem State.reset_dt : State.reset.dt = 0x00#8 := rfl
@[simp] theorem State.reset_st : State.reset.st = 0x00#8 := rfl
@[simp] theorem State.reset_waitForKey : State.reset.waitForKey = none := rfl
@[simp] theorem State.reset_rng : State.reset.rng = Config.rngInit Config.seed := rfl
@[simp] theorem State.reset_fb : State.reset.fb = Vector.replicate 32 0x0#64 := rfl
@[simp] theorem State.reset_fault : State.reset.fault = none := rfl

end Sys2Proof.Machine
end

