-- ==== Sys2Proof/Laws/Memory.lean ====
section
/-! SUPPORT. The laws of memory: a read after a write, the canonical form, and once for each access operation what it
answers. -/

namespace Sys2Proof.Machine

/-! ## Reads after writes, and the canonical form -/

theorem Mem.wfFrom_cons {lo a : Nat} {b : Byte} {m : Mem} :
    Mem.wfFrom lo ((a, b) :: m) = true ↔
      lo ≤ a ∧ a < 4096 ∧ b ≠ Mem.defaultByte a ∧ Mem.wfFrom (a + 1) m = true := by
  simp [Mem.wfFrom, and_assoc]

theorem Mem.wfFrom_mono {lo lo' : Nat} (h : lo' ≤ lo) {m : Mem} (hm : Mem.wfFrom lo m = true) :
    Mem.wfFrom lo' m = true := by
  cases m with
  | nil => rfl
  | cons c m =>
    obtain ⟨a, b⟩ := c
    rw [Mem.wfFrom_cons] at hm ⊢
    exact ⟨h.trans hm.1, hm.2⟩

/-- Below its first address a memory lists nothing. -/
theorem Mem.read_of_lt {m : Mem} {lo a : Nat} (hm : Mem.wfFrom lo m = true) (h : a < lo) :
    Mem.read m a = Mem.defaultByte a := by
  induction m generalizing lo with
  | nil => rfl
  | cons c m ih =>
    obtain ⟨c, d⟩ := c
    rw [Mem.wfFrom_cons] at hm
    have hne : c ≠ a := by omega
    simp only [Mem.read, hne, if_false]
    exact ih hm.2.2.2 (by omega)

theorem Mem.read_write_from {m : Mem} {lo : Nat} (hm : Mem.wfFrom lo m = true) (a : Nat) (b : Byte) (q : Nat) :
    Mem.read (Mem.write m a b) q = if a = q then b else Mem.read m q := by
  induction m generalizing lo with
  | nil =>
    by_cases h : a = q
    · subst h
      by_cases hb : b = Mem.defaultByte a <;> simp [Mem.write, Mem.read, hb]
    · by_cases hb : b = Mem.defaultByte a <;> simp [Mem.write, Mem.read, hb, h]
  | cons c m ih =>
    obtain ⟨c, d⟩ := c
    rw [Mem.wfFrom_cons] at hm
    obtain ⟨-, -, -, hm⟩ := hm
    rcases Nat.lt_trichotomy a c with hlt | heq | hgt
    · by_cases hb : b = Mem.defaultByte a
      · simp only [Mem.write, hlt, hb, if_true]
        by_cases h : a = q
        · have hne : c ≠ q := by omega
          rw [if_pos h, ← h, Mem.read, if_neg (by omega)]
          exact Mem.read_of_lt hm (by omega)
        · simp [h]
      · simp only [Mem.write, hlt, hb, if_true, if_false]
        by_cases h : a = q <;> simp [Mem.read, h]
    · subst heq
      by_cases hb : b = Mem.defaultByte a
      · simp only [Mem.write, Nat.lt_irrefl, hb, if_true, if_false]
        by_cases h : a = q
        · subst h
          simpa using Mem.read_of_lt hm (Nat.lt_succ_self a)
        · simp [Mem.read, h]
      · by_cases h : a = q
        · subst h
          simp [Mem.write, Mem.read, hb]
        · simp [Mem.write, Mem.read, hb, h]
    · have h1 : ¬ a < c := by omega
      have h2 : a ≠ c := by omega
      simp only [Mem.write, h1, h2, if_false, Mem.read, ih hm]
      by_cases h : a = q
      · have : c ≠ q := by omega
        simp [h, this]
      · simp [h]

/-- A read after a write: the byte written at that address, the old byte elsewhere. -/
theorem Mem.read_write {m : Mem} (hm : Mem.wf m = true) (a : Nat) (b : Byte) (q : Nat) :
    Mem.read (Mem.write m a b) q = if a = q then b else Mem.read m q :=
  Mem.read_write_from hm a b q

theorem Mem.wfFrom_write {m : Mem} {lo : Nat} (hm : Mem.wfFrom lo m = true) {a : Nat} (hlo : lo ≤ a)
    (ha : a < 4096) (b : Byte) : Mem.wfFrom lo (Mem.write m a b) = true := by
  induction m generalizing lo with
  | nil => by_cases hb : b = Mem.defaultByte a <;> simp [Mem.write, Mem.wfFrom, hb, hlo, ha]
  | cons c m ih =>
    obtain ⟨c, d⟩ := c
    have hm' := hm
    rw [Mem.wfFrom_cons] at hm
    obtain ⟨hc, hcs, hd, hm⟩ := hm
    rcases Nat.lt_trichotomy a c with hlt | heq | hgt
    · by_cases hb : b = Mem.defaultByte a
      · simpa [Mem.write, hlt, hb] using hm'
      · simp only [Mem.write, hlt, hb, if_true, if_false, Mem.wfFrom_cons]
        exact ⟨hlo, ha, hb, hlt, hcs, hd, hm⟩
    · subst heq
      by_cases hb : b = Mem.defaultByte a
      · simpa [Mem.write, hb] using Mem.wfFrom_mono (by omega) hm
      · simp only [Mem.write, Nat.lt_irrefl, hb, if_true, if_false, Mem.wfFrom_cons]
        exact ⟨hlo, ha, hb, hm⟩
    · have h1 : ¬ a < c := by omega
      have h2 : a ≠ c := by omega
      simp only [Mem.write, h1, h2, if_false, Mem.wfFrom_cons]
      exact ⟨hc, hcs, hd, ih hm (by omega)⟩

/-- Every write to an address that exists keeps the canonical form. -/
theorem Mem.wf_write {m : Mem} (hm : Mem.wf m = true) {a : Nat} (ha : a < 4096) (b : Byte) :
    Mem.wf (Mem.write m a b) = true :=
  Mem.wfFrom_write hm (Nat.zero_le a) ha b

theorem Mem.wf_nil : Mem.wf [] = true := rfl

/-- The free memory that an error leaves is in canonical form, whatever the free value is. -/
theorem Mem.wf_ofCells (cs : List Host.Cell) : Mem.wf (Mem.ofCells cs) = true := by
  induction cs with
  | nil => rfl
  | cons c cs ih =>
    obtain ⟨a, b⟩ := c
    exact Mem.wf_write ih (Nat.mod_lt a (by decide)) b

theorem Mem.wf_writeList {m : Mem} (hm : Mem.wf m = true) (bs : List Byte) {a : Nat}
    (ha : a + bs.length ≤ 4096) : Mem.wf (Mem.writeList m a bs) = true := by
  induction bs generalizing m a with
  | nil => exact hm
  | cons b bs ih =>
    simp only [List.length_cons] at ha
    exact ih (Mem.wf_write hm (by omega) b) (by omega)

/-- Reads after a run of bytes has been written. -/
theorem Mem.read_writeList {m : Mem} (hm : Mem.wf m = true) (bs : List Byte) {a : Nat}
    (ha : a + bs.length ≤ 4096) (q : Nat) :
    Mem.read (Mem.writeList m a bs) q = if h : a ≤ q ∧ q < a + bs.length then bs[q - a]'(by omega) else Mem.read m q := by
  induction bs generalizing m a with
  | nil =>
    have : ¬ (a ≤ q ∧ q < a + ([] : List Byte).length) := by simp
    rw [dif_neg this]; rfl
  | cons b bs ih =>
    simp only [List.length_cons] at ha
    rw [Mem.writeList, ih (Mem.wf_write hm (by omega) b) (by omega), Mem.read_write hm]
    by_cases h : a + 1 ≤ q ∧ q < a + 1 + bs.length
    · have h' : a ≤ q ∧ q < a + (b :: bs).length := by simp only [List.length_cons]; omega
      rw [dif_pos h, dif_pos h']
      have e : q - a = (q - (a + 1)) + 1 := by omega
      simp [e]
    · rw [dif_neg h]
      by_cases e : a = q
      · subst e
        simp
      · have h' : ¬ (a ≤ q ∧ q < a + (b :: bs).length) := by simp only [List.length_cons]; omega
        rw [dif_neg h', if_neg e]

/-! ## The access operations -/

/-- Everything `MemRead(a, 1)` can answer. -/
theorem State.memRead1_eq (s : State) (a : Nat) :
    s.memRead1 a = if a ≤ 0xFFF then .ok (Mem.read s.mem a) else .error (.addressOutOfRange a) := by
  by_cases h : a ≤ 0xFFF <;> simp [State.memRead1, h]

/-- Everything `MemWrite(a, 1, b)` can answer. -/
theorem State.memWrite1_eq (s : State) (a : Nat) (b : Byte) :
    s.memWrite1 a b =
      if a ≤ 0xFFF then .ok { s with mem := Mem.write s.mem a b } else .error (.addressOutOfRange a) := by
  by_cases h : a ≤ 0xFFF <;> simp [State.memWrite1, h]

/-- Everything the fetch can answer. -/
theorem State.fetch_eq (s : State) :
    s.fetch = if s.pc.toNat + 1 ≤ 0xFFF
      then .ok (joinBytes (Mem.read s.mem s.pc.toNat) (Mem.read s.mem (s.pc.toNat + 1)))
      else .error (.addressOutOfRange (s.pc.toNat + 1)) := by
  by_cases h : s.pc.toNat + 1 ≤ 0xFFF
  · rw [if_pos h, State.fetch, State.memRead2, if_neg (by omega)]
  · rw [if_neg h, State.fetch, State.memRead2, if_pos (by omega)]

/-- Everything `n` reads from `a` can answer: the bytes in order, or the first address above 0xFFF. -/
theorem State.readBytes_eq (s : State) {a : Nat} (ha : a ≤ 0xFFF) (n : Nat) :
    s.readBytes a n = if a + n ≤ 4096
      then .ok ((List.range n).map (fun j => Mem.read s.mem (a + j))) else .error (.addressOutOfRange 4096) := by
  induction n generalizing a with
  | zero => simp [State.readBytes]; omega
  | succ n ih =>
    rw [State.readBytes, State.memRead1_eq, if_pos ha]
    by_cases h1 : a + 1 ≤ 0xFFF
    · simp only [ih h1]
      by_cases h : a + 1 + n ≤ 4096
      · rw [if_pos h, if_pos (by omega), List.range_succ_eq_map]
        simp [Nat.add_assoc, Nat.add_comm 1]
      · rw [if_neg h, if_neg (by omega)]
    · have e : a = 4095 := by omega
      subst e
      cases n with
      | zero => simp [State.readBytes]
      | succ n =>
        rw [if_neg (by omega)]
        simp [State.readBytes, State.memRead1_eq]

/-- Everything `writeBytes` from `a` can answer. -/
theorem State.writeBytes_eq (s : State) {a : Nat} (ha : a ≤ 0xFFF) (bs : List Byte) :
    s.writeBytes a bs = if a + bs.length ≤ 4096
      then .ok { s with mem := Mem.writeList s.mem a bs } else .error (.addressOutOfRange 4096) := by
  induction bs generalizing a s with
  | nil =>
    have : a + ([] : List Byte).length ≤ 4096 := by simp; omega
    rw [if_pos this]; rfl
  | cons b bs ih =>
    rw [State.writeBytes, State.memWrite1_eq, if_pos ha]
    simp only [List.length_cons]
    by_cases h1 : a + 1 ≤ 0xFFF
    · simp only [ih _ h1]
      by_cases h : a + 1 + bs.length ≤ 4096
      · rw [if_pos h, if_pos (by omega)]; rfl
      · rw [if_neg h, if_neg (by omega)]
    · have e : a = 4095 := by omega
      subst e
      cases bs with
      | nil => rfl
      | cons c bs =>
        rw [if_neg (by simp only [List.length_cons]; omega)]
        simp [State.writeBytes, State.memWrite1_eq]

end Sys2Proof.Machine
end

