-- ==== Sys2Proof/Laws/Ops.lean ====
section
/-! SUPPORT. The laws of registers, flags, the stack and the end of a tick: once for each shared operation, everything it
can do. -/

namespace Sys2Proof.Machine

/-! ## Registers and flags -/

/-- A register read after a register write. -/
theorem State.reg_setReg (s : State) (r : Nibble) (b : Byte) (q : Nibble) :
    (s.setReg r b).reg q = if r = q then b else s.reg q := by
  simp only [State.reg, State.setReg, Vector.getElem_set]
  by_cases h : r = q
  · simp [h]
  · have : r.toNat ≠ q.toNat := fun e => h (BitVec.eq_of_toNat_eq e)
    simp [h, this]

/-- Two states with the same registers read the same. -/
theorem State.reg_congr {s t : State} (h : t.v = s.v) (q : Nibble) : t.reg q = s.reg q := by
  simp only [State.reg, h]

theorem State.reg_setFlag (s : State) (c : Bool) (q : Nibble) :
    (s.setFlag c).reg q = if q = 0xF#4 then flagByte c else s.reg q := by
  rw [State.setFlag, State.reg_setReg]
  by_cases h : q = 0xF#4
  · subst h; simp [vf]
  · have h' : ¬ vf = q := fun e => h (by rw [← e]; rfl)
    simp [h, h']

/-- Rule R97: the flag wins over the result where `x = 0xF`. -/
theorem State.reg_setResultFlag (s : State) (x : Nibble) (b : Byte) (c : Bool) (q : Nibble) :
    (s.setResultFlag x b c).reg q = if q = 0xF#4 then flagByte c else if x = q then b else s.reg q := by
  rw [State.setResultFlag, State.reg_setFlag, State.reg_setReg]

theorem flagByte_cases (c : Bool) : flagByte c = 0x00#8 ∨ flagByte c = 0x01#8 := by cases c <;> simp [flagByte]

/-! ## `I`, the stack, `pc` -/

theorem State.writeI_eq (s : State) (t : Nat) :
    s.writeI t = if t ≤ 0xFFF then .ok { s with iReg := BitVec.ofNat 12 t } else .error (.addressOutOfRange t) := by
  by_cases h : t ≤ 0xFFF
  · rw [if_pos h, State.writeI, if_neg (by omega)]
  · rw [if_neg h, State.writeI, if_pos (by omega)]

theorem State.push_full {s : State} (h : s.sp.val = 16) (ra : Nat) : s.push ra = .error .stackOverflow := by
  rw [State.push, dif_neg (by omega)]

theorem State.push_range {s : State} (h : s.sp.val < 16) {ra : Nat} (hr : 0xFFF < ra) :
    s.push ra = .error (.addressOutOfRange ra) := by
  rw [State.push, dif_pos h, if_pos hr]

theorem State.push_ok {s : State} (h : s.sp.val < 16) {ra : Nat} (hr : ra ≤ 0xFFF) :
    s.push ra = .ok { s with
      stack := s.stack.set s.sp.val (BitVec.ofNat 12 ra) h
      sp := ⟨s.sp.val + 1, Nat.succ_lt_succ h⟩ } := by
  rw [State.push, dif_pos h, if_neg (by omega)]

theorem State.pop_empty {s : State} (h : s.sp.val = 0) : s.pop = .error .stackUnderflow := by
  rw [State.pop, dif_neg (by omega)]

theorem State.pop_ok {s : State} (h : 0 < s.sp.val) :
    s.pop = .ok ({ s with sp := ⟨s.sp.val - 1, by omega⟩ }, s.stack[s.sp.val - 1]'(by omega)) := by
  rw [State.pop, dif_pos h]

@[simp] theorem State.orRaise_ok {α : Type} (s : State) (i : Instr) (a : α) (k : α → State) :
    s.orRaise i (.ok a) k = k a := rfl

@[simp] theorem State.orRaise_error {α : Type} (s : State) (i : Instr) (e : ErrorKind) (k : α → State) :
    s.orRaise i (.error e) k = s.raise e (encode i) := rfl

theorem State.writePc_ok (s : State) (i : Instr) {next : Nat} (h : next ≤ 0xFFF) :
    s.writePc i next = { s with pc := BitVec.ofNat 12 next } := by
  rw [State.writePc, if_neg (by omega)]

theorem State.writePc_range (s : State) (i : Instr) {next : Nat} (h : 0xFFF < next) :
    s.writePc i next = s.raise (.addressOutOfRange next) (encode i) := by
  rw [State.writePc, if_pos h]

/-- Adding a small number to a 12-bit value that stays in range. -/
theorem ofNat_add_toNat (a : Addr) (k : Nat) : BitVec.ofNat 12 (a.toNat + k) = a + BitVec.ofNat 12 k := by
  apply BitVec.eq_of_toNat_eq
  simp [BitVec.toNat_add]

theorem State.advance_ok {s : State} (i : Instr) (h : s.pc.toNat + 2 ≤ 0xFFF) :
    s.advance i = { s with pc := s.pc + 2#12 } := by
  rw [State.advance, State.writePc_ok s i h, ofNat_add_toNat]

theorem State.advance_range {s : State} (i : Instr) (h : 0xFFF < s.pc.toNat + 2) :
    s.advance i = s.raise (.addressOutOfRange (s.pc.toNat + 2)) (encode i) :=
  State.writePc_range s i h

theorem State.skipIf_true (s : State) (i : Instr) : s.skipIf i true = s.writePc i (s.pc.toNat + 4) := rfl

theorem State.skipIf_false (s : State) (i : Instr) : s.skipIf i false = s.advance i := rfl

theorem State.skipIf_taken {s : State} (i : Instr) (h : s.pc.toNat + 4 ≤ 0xFFF) :
    s.skipIf i true = { s with pc := s.pc + 4#12 } := by
  rw [State.skipIf_true, State.writePc_ok s i h, ofNat_add_toNat]

theorem State.skipIf_range {s : State} (i : Instr) (h : 0xFFF < s.pc.toNat + 4) :
    s.skipIf i true = s.raise (.addressOutOfRange (s.pc.toNat + 4)) (encode i) :=
  State.writePc_range s i h

/-! ## What an `Ok` end of a tick says of the write of `pc` -/

/-- Everything `raise` shows: the record in the latch, and the result. -/
theorem State.raise_raised (s : State) (k : ErrorKind) (op : Opcode) : (s.raise k op).Raised k s.pc op := ⟨rfl, rfl⟩

/-- A tick's result is read from the latch alone. -/
theorem State.result_ok_iff (s : State) : s.result = .ok ↔ s.fault = none := by
  cases h : s.fault <;> simp [State.result, h]

theorem State.result_faulted {s : State} {e : ErrorRecord} (h : s.fault = some e) :
    s.result = .error e.kind.code e.pc e.opcode := by simp [State.result, h]

theorem State.raise_not_ok (s : State) (k : ErrorKind) (op : Opcode) : ¬ (s.raise k op).fault = none := by simp

/-- If the write of `pc` raised nothing, only `pc` changed. -/
theorem State.writePc_inv {s : State} {i : Instr} {next : Nat} (h : (s.writePc i next).fault = none) :
    next ≤ 0xFFF ∧ s.writePc i next = { s with pc := BitVec.ofNat 12 next } := by
  by_cases hn : next ≤ 0xFFF
  · exact ⟨hn, State.writePc_ok s i hn⟩
  · rw [State.writePc_range s i (by omega)] at h
    exact absurd h (State.raise_not_ok _ _ _)

theorem State.advance_inv {s : State} {i : Instr} (h : (s.advance i).fault = none) :
    s.pc.toNat + 2 ≤ 0xFFF ∧ s.advance i = { s with pc := BitVec.ofNat 12 (s.pc.toNat + 2) } :=
  State.writePc_inv h

theorem State.skipIf_inv {s : State} {i : Instr} {c : Bool} (h : (s.skipIf i c).fault = none) :
    s.skipIf i c = { s with pc := BitVec.ofNat 12 (if c then s.pc.toNat + 4 else s.pc.toNat + 2) } :=
  (State.writePc_inv h).2

/-- If `orRaise` ends without an error, the operation gave a value. -/
theorem State.orRaise_inv {α : Type} {s : State} {i : Instr} {r : Except ErrorKind α} {k : α → State}
    (h : (s.orRaise i r k).fault = none) : ∃ a, r = .ok a ∧ s.orRaise i r k = k a := by
  cases r with
  | error e => exact absurd h (State.raise_not_ok _ _ _)
  | ok a => exact ⟨a, rfl, rfl⟩

/-! ## Timers and keys -/

theorem countDown_toNat (t : Byte) : (countDown t).toNat = t.toNat - 1 := by
  unfold countDown
  split
  · rename_i h; simp [h]
  · rename_i h
    have : t.toNat ≠ 0 := fun e => h (BitVec.eq_of_toNat_eq e)
    rw [BitVec.toNat_sub_of_le]
    · rfl
    · rw [BitVec.le_def]; simp; omega

theorem State.nextKeys_nil {s : State} (h : s.keyFeed = []) : s.nextKeys = Config.keysAt s.ticks := by
  simp [State.nextKeys, h]

theorem State.nextKeys_cons {s : State} {k : KeyMask} {ks : List KeyMask} (h : s.keyFeed = k :: ks) :
    s.nextKeys = k := by
  simp [State.nextKeys, h]

/-! ## The tick -/

/-- A running core's tick goes straight to the fetch. -/
theorem tick_running {s : State} (hf : s.fault = none) (hw : s.waitForKey = none) : tick s = s.runPhases := by
  simp [tick, hf, State.keyWait, hw]

theorem tick_faulted {s : State} {e : ErrorRecord} (h : s.fault = some e) : tick s = .next s := by simp [tick, h]

theorem State.runPhases_fetch {s : State} {op : Opcode} (h : s.Fetches op) : s.runPhases = s.runOpcode op := by
  obtain ⟨h1, h2⟩ := h
  rw [State.runPhases, State.fetch_eq, if_pos h1, h2]

end Sys2Proof.Machine
end

