-- ==== Sys2Proof/Laws/Display.lean ====
section
/-! SUPPORT. The laws of the framebuffer: a pixel after one inversion, and once for the whole of `draw`: which pixels it
inverts and when it reports a collision (45_display.md rule R114). -/

namespace Sys2Proof.Machine

theorem Framebuffer.pixel_blank (x y : Nat) : Framebuffer.pixel Framebuffer.blank x y = false := by
  simp [Framebuffer.pixel, Framebuffer.blank]

/-- A pixel after `flip`. -/
theorem Framebuffer.pixel_flip (fb : Framebuffer) (x y px py : Nat) :
    Framebuffer.pixel (Framebuffer.flip fb x y) px py =
      (Framebuffer.pixel fb px py ^^ decide (px % 64 = x % 64 ∧ py % 32 = y % 32)) := by
  simp only [Framebuffer.pixel, Framebuffer.flip, Vector.getElem_set]
  by_cases hy : y % 32 = py % 32
  · simp only [hy, if_true, BitVec.getLsbD_xor, and_true]
    congr 1
    have h64 : px % 64 < 64 := Nat.mod_lt _ (by decide)
    simp only [BitVec.getLsbD_shiftLeft, h64, decide_true, Bool.true_and, BitVec.getLsbD_one]
    by_cases hx : px % 64 = x % 64
    · simp [hx]
    · by_cases hlt : px % 64 < x % 64
      · simp [hlt, hx]
      · have : px % 64 - x % 64 ≠ 0 := by omega
        simp [hlt, hx, this]
  · have hy' : ¬ py % 32 = y % 32 := fun h => hy h.symm
    simp [hy, hy']

/-- Column `c` of the row lands on pixel `(px, py)` and its sprite bit is 1. -/
def rowHits (row : Byte) (x0 y c px py : Nat) : Bool :=
  row.getLsbD (7 - c) && decide (px % 64 = (x0 + c) % 64 ∧ py % 32 = y % 32)

/-- Some column of `cs` hits the pixel. -/
def columnsHit (row : Byte) (x0 y : Nat) (cs : List Nat) (px py : Nat) : Bool :=
  cs.any (fun c => rowHits row x0 y c px py)

/-- One row: when the columns are at most 64 apart, each hit pixel is inverted once, and the collision is reported iff a
hit pixel was on. -/
theorem drawRow_spec (row : Byte) (x0 y : Nat) (cs : List Nat) (hcs : cs.Nodup) (hlt : ∀ c ∈ cs, c < 64)
    (acc : Framebuffer × Bool) :
    (∀ px py, Framebuffer.pixel (drawRow row x0 y cs acc).1 px py =
      (Framebuffer.pixel acc.1 px py ^^ columnsHit row x0 y cs px py)) ∧
    ((drawRow row x0 y cs acc).2 = true ↔
      acc.2 = true ∨ ∃ px py, columnsHit row x0 y cs px py = true ∧ Framebuffer.pixel acc.1 px py = true) := by
  induction cs generalizing acc with
  | nil => simp [drawRow, columnsHit]
  | cons c cs ih =>
    obtain ⟨hc, hcs⟩ := List.nodup_cons.mp hcs
    have hlt' : ∀ d ∈ cs, d < 64 := fun d hd => hlt d (List.mem_cons_of_mem _ hd)
    have hc64 : c < 64 := hlt c List.mem_cons_self
    by_cases hb : row.getLsbD (7 - c) = true
    · have hi := ih hcs hlt' (drawPixel acc (x0 + c) y)
      simp only [drawRow, hb, if_true]
      have hit : ∀ px py, columnsHit row x0 y (c :: cs) px py =
          (decide (px % 64 = (x0 + c) % 64 ∧ py % 32 = y % 32) || columnsHit row x0 y cs px py) := by
        intro px py; simp [columnsHit, rowHits, hb]
      have excl : ∀ px py, (px % 64 = (x0 + c) % 64 ∧ py % 32 = y % 32) → columnsHit row x0 y cs px py = false := by
        intro px py hp
        simp only [columnsHit, List.any_eq_false]
        intro d hd
        have hne : d ≠ c := fun e => hc (e ▸ hd)
        have hd64 := hlt' d hd
        have : ¬ px % 64 = (x0 + d) % 64 := by omega
        simp [rowHits, this]
      constructor
      · intro px py
        rw [hi.1, hit, drawPixel, Framebuffer.pixel_flip, Bool.xor_assoc]
        congr 1
        by_cases hp : px % 64 = (x0 + c) % 64 ∧ py % 32 = y % 32
        · simp [excl px py hp, hp]
        · simp [hp]
      · rw [hi.2]
        simp only [drawPixel, Bool.or_eq_true]
        constructor
        · rintro ((h | h) | ⟨px, py, h, hp⟩)
          · exact .inl h
          · exact .inr ⟨x0 + c, y, by simp [hit], h⟩
          · refine .inr ⟨px, py, by simp [hit, h], ?_⟩
            rw [Framebuffer.pixel_flip] at hp
            have hn : ¬ (px % 64 = (x0 + c) % 64 ∧ py % 32 = y % 32) := by
              intro hq
              rw [excl px py hq] at h
              exact absurd h (by simp)
            simpa [hn] using hp
        · rintro (h | ⟨px, py, h, hp⟩)
          · exact .inl (.inl h)
          · by_cases hq : px % 64 = (x0 + c) % 64 ∧ py % 32 = y % 32
            · refine .inl (.inr ?_)
              have : Framebuffer.pixel acc.1 (x0 + c) y = Framebuffer.pixel acc.1 px py := by
                simp only [Framebuffer.pixel, hq.1, hq.2]
              rw [this]; exact hp
            · refine .inr ⟨px, py, by simpa [hit, hq] using h, ?_⟩
              rw [Framebuffer.pixel_flip]
              simp [hq, hp]
    · have hi := ih hcs hlt' acc
      have hit : ∀ px py, columnsHit row x0 y (c :: cs) px py = columnsHit row x0 y cs px py := by
        intro px py; simp [columnsHit, rowHits, hb]
      simp only [drawRow, hb, hit]
      exact hi

/-- The sprite has a 1 bit that lands on pixel `(px, py)`: row `r` of the sprite is drawn at `y0 + r`. -/
def spriteHits (x0 y0 : Nat) : List Byte → Nat → Nat → Bool
  | [], _, _ => false
  | row :: rows, px, py => columnsHit row x0 y0 spriteColumns px py || spriteHits x0 (y0 + 1) rows px py

theorem columnsHit_y {row : Byte} {x0 y : Nat} {cs : List Nat} {px py : Nat}
    (h : columnsHit row x0 y cs px py = true) : py % 32 = y % 32 := by
  simp only [columnsHit, List.any_eq_true, rowHits, Bool.and_eq_true, decide_eq_true_eq] at h
  obtain ⟨_, _, _, _, hy⟩ := h
  exact hy

/-- A sprite of at most 32 rows hits a pixel through one row only. -/
theorem spriteHits_y {x0 : Nat} {rows : List Byte} {y0 px py : Nat} (h : spriteHits x0 y0 rows px py = true) :
    ∃ r, r < rows.length ∧ py % 32 = (y0 + r) % 32 := by
  induction rows generalizing y0 with
  | nil => exact absurd h (by simp [spriteHits])
  | cons row rows ih =>
    rw [spriteHits, Bool.or_eq_true] at h
    rcases h with h | h
    · exact ⟨0, by simp, columnsHit_y h⟩
    · obtain ⟨r, hr, e⟩ := ih h
      exact ⟨r + 1, by simpa using hr, by rw [e]; congr 1; omega⟩

theorem spriteColumns_nodup : spriteColumns.Nodup := by decide

theorem spriteColumns_lt : ∀ c ∈ spriteColumns, c < 64 := by decide

/-- All rows: each pixel the sprite hits is inverted once, and the collision is reported iff a hit pixel was on. -/
theorem drawRows_spec (x0 y0 : Nat) (rows : List Byte) (hn : rows.length ≤ 32) (acc : Framebuffer × Bool) :
    (∀ px py, Framebuffer.pixel (drawRows x0 y0 rows acc).1 px py =
      (Framebuffer.pixel acc.1 px py ^^ spriteHits x0 y0 rows px py)) ∧
    ((drawRows x0 y0 rows acc).2 = true ↔
      acc.2 = true ∨ ∃ px py, spriteHits x0 y0 rows px py = true ∧ Framebuffer.pixel acc.1 px py = true) := by
  induction rows generalizing y0 acc with
  | nil => simp [drawRows, spriteHits]
  | cons row rows ih =>
    simp only [List.length_cons] at hn
    have h1 := drawRow_spec row x0 y0 spriteColumns spriteColumns_nodup spriteColumns_lt acc
    have h2 := ih (y0 + 1) (by omega) (drawRow row x0 y0 spriteColumns acc)
    have excl : ∀ px py, columnsHit row x0 y0 spriteColumns px py = true →
        spriteHits x0 (y0 + 1) rows px py = false := by
      intro px py h
      by_contra hs
      rw [Bool.not_eq_false] at hs
      obtain ⟨r, hr, e⟩ := spriteHits_y hs
      have := columnsHit_y h
      omega
    rw [drawRows]
    constructor
    · intro px py
      rw [h2.1, h1.1, Bool.xor_assoc]
      congr 1
      rw [spriteHits]
      cases hc : columnsHit row x0 y0 spriteColumns px py with
      | false => simp
      | true => simp [excl px py hc]
    · rw [h2.2, h1.2]
      simp only [spriteHits, Bool.or_eq_true]
      constructor
      · rintro ((h | ⟨px, py, h, hp⟩) | ⟨px, py, h, hp⟩)
        · exact .inl h
        · exact .inr ⟨px, py, .inl h, hp⟩
        · refine .inr ⟨px, py, .inr h, ?_⟩
          rw [h1.1] at hp
          cases hc : columnsHit row x0 y0 spriteColumns px py with
          | true => rw [excl px py hc] at h; exact absurd h (by simp)
          | false => simpa [hc] using hp
      · rintro (h | ⟨px, py, h | h, hp⟩)
        · exact .inl (.inl h)
        · exact .inl (.inr ⟨px, py, h, hp⟩)
        · by_cases hc : columnsHit row x0 y0 spriteColumns px py = true
          · exact .inl (.inr ⟨px, py, hc, hp⟩)
          · refine .inr ⟨px, py, h, ?_⟩
            rw [h1.1]
            simp [hc, hp]

/-- The pixel's hit, by row and column of the sprite (rule R114). -/
theorem spriteHits_iff (x0 y0 : Nat) (rows : List Byte) (px py : Nat) :
    spriteHits x0 y0 rows px py = true ↔
      ∃ r c, ∃ h : r < rows.length, c < 8 ∧ (rows[r]).getLsbD (7 - c) = true ∧
        px % 64 = (x0 + c) % 64 ∧ py % 32 = (y0 + r) % 32 := by
  have hcol : ∀ (row : Byte) (y : Nat), columnsHit row x0 y spriteColumns px py = true ↔
      ∃ c, c < 8 ∧ row.getLsbD (7 - c) = true ∧ px % 64 = (x0 + c) % 64 ∧ py % 32 = y % 32 := by
    intro row y
    have hm : ∀ c, c ∈ spriteColumns ↔ c < 8 := by
      intro c
      simp only [spriteColumns, List.mem_cons, List.not_mem_nil, or_false]
      omega
    simp [columnsHit, rowHits, hm]
  induction rows generalizing y0 with
  | nil => simp [spriteHits]
  | cons row rows ih =>
    rw [spriteHits, Bool.or_eq_true]
    refine (or_congr (hcol row y0) (ih (y0 + 1))).trans ?_
    constructor
    · rintro (⟨c, hc, hb, hx, hy⟩ | ⟨r, c, hr, hc, hb, hx, hy⟩)
      · exact ⟨0, c, by simp, hc, hb, hx, by simpa using hy⟩
      · exact ⟨r + 1, c, by simpa using hr, hc, by simpa using hb, hx, by rw [hy]; congr 1; omega⟩
    · rintro ⟨r, c, hr, hc, hb, hx, hy⟩
      cases r with
      | zero => exact .inl ⟨c, hc, by simpa using hb, hx, by simpa using hy⟩
      | succ r =>
        exact .inr ⟨r, c, by simpa using hr, hc, by simpa using hb, hx, by rw [hy]; congr 1; omega⟩

end Sys2Proof.Machine
end

