-- ==== Sys2Proof/Laws/Operands.lean ====
section
/-! SUPPORT. The laws of the operand forms: register ranges stored and loaded, the lowest key. -/

namespace Sys2Proof.Machine

/-- The registers `k, k+1, .., k+n-1`. -/
def regRange (k n : Nat) : List Nibble := (List.range' k n).map (BitVec.ofNat 4)

theorem regsUpTo_eq (x : Nibble) : regsUpTo x = regRange 0 (x.toNat + 1) := by
  simp [regsUpTo, regRange, List.range_eq_range']

theorem regRange_succ (k n : Nat) : regRange k (n + 1) = BitVec.ofNat 4 k :: regRange (k + 1) n := by
  simp [regRange, List.range'_succ]

/-- Storing registers is writing their values as bytes: no register changes while they are stored. -/
theorem State.storeRegs_eq_writeBytes (s : State) (a k n : Nat) (h : k + n ≤ 16) :
    s.storeRegs a (regRange k n) = s.writeBytes (a + k) ((regRange k n).map s.reg) := by
  induction n generalizing s k with
  | zero => rfl
  | succ n ih =>
    have e : (BitVec.ofNat 4 k).toNat = k := by simp; omega
    simp only [regRange_succ, List.map_cons, State.storeRegs, State.writeBytes, e]
    cases hw : s.memWrite1 (a + k) (s.reg (BitVec.ofNat 4 k)) with
    | error _ => rfl
    | ok t =>
      have ht : t.v = s.v := by
        rw [State.memWrite1_eq] at hw
        split at hw
        · injection hw with hw; rw [← hw]
        · cases hw
      have hr : t.reg = s.reg := funext (State.reg_congr ht)
      simp only [ih t (k + 1) (by omega), hr, Nat.add_assoc]

/-- Everything `Fx55`'s store of `V0..Vx` can answer. -/
theorem State.storeRegs_upTo (s : State) {a : Nat} (ha : a ≤ 0xFFF) (x : Nibble) :
    s.storeRegs a (regsUpTo x) = if a + (x.toNat + 1) ≤ 4096
      then .ok { s with mem := Mem.writeList s.mem a ((regsUpTo x).map s.reg) }
      else .error (.addressOutOfRange 4096) := by
  have hx : x.toNat < 16 := x.isLt
  rw [regsUpTo_eq, State.storeRegs_eq_writeBytes _ _ _ _ (by omega), Nat.add_zero, State.writeBytes_eq _ ha]
  simp [regRange]

/-- Everything a load of the registers `k, .., k+n-1` can answer. -/
theorem State.loadRegs_range (s : State) (a k n : Nat) (h : k + n ≤ 16) (ha : a + k ≤ 0xFFF) :
    if a + k + n ≤ 4096
    then ∃ v', s.loadRegs a (regRange k n) = .ok { s with v := v' } ∧
      ∀ q : Nibble, ({ s with v := v' } : State).reg q =
        if k ≤ q.toNat ∧ q.toNat < k + n then Mem.read s.mem (a + q.toNat) else s.reg q
    else s.loadRegs a (regRange k n) = .error (.addressOutOfRange 4096) := by
  induction n generalizing s k with
  | zero =>
    rw [if_pos (by omega)]
    exact ⟨s.v, rfl, fun q => by rw [if_neg (by omega)]⟩
  | succ n ih =>
    have e : (BitVec.ofNat 4 k).toNat = k := by simp; omega
    simp only [regRange_succ, State.loadRegs, e, State.memRead1_eq, if_pos ha]
    by_cases hn : n = 0
    · subst hn
      rw [if_pos (by omega)]
      refine ⟨_, rfl, fun q => ?_⟩
      refine (State.reg_setReg s (BitVec.ofNat 4 k) (Mem.read s.mem (a + k)) q).trans ?_
      by_cases hq : BitVec.ofNat 4 k = q
      · have : q.toNat = k := by rw [← hq, e]
        rw [if_pos hq, if_pos (by omega), this]
      · have : q.toNat ≠ k := fun h => hq (BitVec.eq_of_toNat_eq (by rw [e, h]))
        rw [if_neg hq, if_neg (by omega)]
    · by_cases hk : a + (k + 1) ≤ 0xFFF
      · have hi := ih (s.setReg (BitVec.ofNat 4 k) (Mem.read s.mem (a + k))) (k + 1) (by omega) hk
        by_cases hfit : a + k + (n + 1) ≤ 4096
        · rw [if_pos (by omega)] at hi
          obtain ⟨v', hv, hr⟩ := hi
          rw [if_pos hfit]
          refine ⟨v', hv, fun q => ?_⟩
          have hr' : ({ s with v := v' } : State).reg q = _ := hr q
          rw [hr', State.reg_setReg, State.setReg_mem]
          by_cases hq : BitVec.ofNat 4 k = q
          · have : q.toNat = k := by rw [← hq, e]
            rw [if_neg (by omega), if_pos hq, if_pos (by omega), this]
          · have : q.toNat ≠ k := fun h => hq (BitVec.eq_of_toNat_eq (by rw [e, h]))
            by_cases hc : k + 1 ≤ q.toNat ∧ q.toNat < k + 1 + n
            · rw [if_pos hc, if_pos (by omega)]
            · rw [if_neg hc, if_neg hq, if_neg (by omega)]
        · rw [if_neg (by omega)] at hi
          rw [if_neg hfit]
          exact hi
      · have e' : a + k = 4095 := by omega
        rw [if_neg (by omega)]
        obtain ⟨n, rfl⟩ : ∃ j, n = j + 1 := ⟨n - 1, by omega⟩
        have e2 : (BitVec.ofNat 4 (k + 1)).toNat = k + 1 := by simp; omega
        rw [regRange_succ, State.loadRegs, State.memRead1_eq, e2, if_neg (by omega)]
        simp only [← Nat.add_assoc, e']

/-- Everything `Fx65`'s load of `V0..Vx` can answer. -/
theorem State.loadRegs_upTo (s : State) {a : Nat} (ha : a ≤ 0xFFF) (x : Nibble) :
    if a + x.toNat + 1 ≤ 4096
    then ∃ v', s.loadRegs a (regsUpTo x) = .ok { s with v := v' } ∧
      ∀ q : Nibble, ({ s with v := v' } : State).reg q =
        if q.toNat ≤ x.toNat then Mem.read s.mem (a + q.toNat) else s.reg q
    else s.loadRegs a (regsUpTo x) = .error (.addressOutOfRange 4096) := by
  have hx : x.toNat < 16 := x.isLt
  have h := State.loadRegs_range s a 0 (x.toNat + 1) (by omega) (by omega)
  rw [← regsUpTo_eq] at h
  by_cases hfit : a + x.toNat + 1 ≤ 4096
  · rw [if_pos (by omega)] at h
    rw [if_pos hfit]
    obtain ⟨v', hv, hr⟩ := h
    refine ⟨v', hv, fun q => (hr q).trans ?_⟩
    by_cases hq : q.toNat ≤ x.toNat
    · rw [if_pos hq, if_pos (by omega)]
    · rw [if_neg hq, if_neg (by omega)]
  · rw [if_neg (by omega)] at h
    rw [if_neg hfit]
    exact h

/-- No key is down exactly when the scan finds none. -/
theorem lowestKey_none {keys : KeyMask} : lowestKey keys = none ↔ keys = 0x0000#16 := by
  constructor
  · intro h
    simp only [lowestKey, List.find?_eq_none] at h
    apply BitVec.eq_of_getLsbD_eq
    intro i hi
    have hm : BitVec.ofNat 4 i ∈ keyIndices := by
      simp only [keyIndices, List.mem_map, List.mem_range]
      exact ⟨i, hi, rfl⟩
    have e : (BitVec.ofNat 4 i).toNat = i := by simp; omega
    have := h _ hm
    rw [e] at this
    simpa using this
  · intro h
    subst h
    decide

/-- The key the scan finds is down, and no lower key is. -/
theorem lowestKey_some {keys : KeyMask} {k : Nibble} (h : lowestKey keys = some k) :
    keys.getLsbD k.toNat = true ∧ ∀ j, j < k.toNat → keys.getLsbD j = false := by
  rw [lowestKey, List.find?_eq_some_iff_append] at h
  obtain ⟨hk, as, bs, hl, hb⟩ := h
  refine ⟨hk, fun j hj => ?_⟩
  have hget : ∀ n, n < 16 → keyIndices[n]? = some (BitVec.ofNat 4 n) := by
    intro n hn
    simp [keyIndices, List.getElem?_range hn]
  have hlen : as.length < 16 := by
    have := congrArg List.length hl
    simp [keyIndices] at this
    omega
  have hkl : BitVec.ofNat 4 as.length = k := by
    have := hget as.length hlen
    rw [hl] at this
    simpa using this.symm
  have hk' : k.toNat = as.length := by rw [← hkl]; simp; omega
  have hj' : j < as.length := by omega
  have hm : BitVec.ofNat 4 j ∈ as := by
    have := hget j (by omega)
    rw [hl, List.getElem?_append_left hj'] at this
    exact List.mem_of_getElem? this
  have e : (BitVec.ofNat 4 j).toNat = j := by simp; omega
  have := hb _ hm
  rw [e] at this
  simpa using this

end Sys2Proof.Machine
end

