-- ==== Sys2Proof/Laws/PerInstr.lean ====
section
/-! SUPPORT. The per-instruction family `EncodesRow`: the word `encode` gives an instruction has the pattern of the row of
spec/opcode_table.json it belongs to (30_encoding.md rule R50), one lemma per constructor. -/

namespace Sys2Proof

/-- Rule R53 and the widths of the field types: every instruction is well-formed. -/
theorem Instr.wellFormed_true (i : Instr) : i.wellFormed = true := by
  cases i <;> simp only [Instr.wellFormed, Bool.and_eq_true, decide_eq_true_eq] <;> omega

namespace Laws

/-- The instruction's word has its row's pattern: `op & mask = match`. -/
def EncodesRow.Statement (i : Instr) : Prop := encode i &&& i.row.mask = i.row.pattern

/-! ## One lemma per format: masking a packed word leaves its fixed digits -/

theorem getLsbD_packNNN (a : Nibble) (nnn : Addr) (i : Nat) :
    (packNNN a nnn).getLsbD i = if i < 12 then nnn.getLsbD i else a.getLsbD (i - 12) :=
  BitVec.getLsbD_append

theorem getLsbD_packXKK (a x : Nibble) (kk : Byte) (i : Nat) : (packXKK a x kk).getLsbD i =
    if i < 8 then kk.getLsbD i else if i - 8 < 4 then x.getLsbD (i - 8) else a.getLsbD (i - 8 - 4) :=
  BitVec.getLsbD_append.trans (by rw [BitVec.getLsbD_append])

theorem getLsbD_packXYN (a x y n : Nibble) (i : Nat) : (packXYN a x y n).getLsbD i =
    if i < 4 then n.getLsbD i else if i - 4 < 4 then y.getLsbD (i - 4)
    else if i - 4 - 4 < 4 then x.getLsbD (i - 4 - 4) else a.getLsbD (i - 4 - 4 - 4) :=
  BitVec.getLsbD_append.trans (by rw [BitVec.getLsbD_append, BitVec.getLsbD_append])

theorem maskNNN (a : Nibble) (nnn : Addr) : packNNN a nnn &&& 0xF000#16 = packNNN a 0x000#12 := by
  apply BitVec.eq_of_getLsbD_eq; intro i hi
  rw [BitVec.getLsbD_and, getLsbD_packNNN, getLsbD_packNNN]
  interval_cases i <;> simp

theorem maskXKK (a x : Nibble) (kk : Byte) : packXKK a x kk &&& 0xF000#16 = packXKK a 0x0#4 0x00#8 := by
  apply BitVec.eq_of_getLsbD_eq; intro i hi
  rw [BitVec.getLsbD_and, getLsbD_packXKK, getLsbD_packXKK]
  interval_cases i <;> simp

theorem maskX (a : Nibble) (kk : Byte) (x : Nibble) : packXKK a x kk &&& 0xF0FF#16 = packXKK a 0x0#4 kk := by
  apply BitVec.eq_of_getLsbD_eq; intro i hi
  rw [BitVec.getLsbD_and, getLsbD_packXKK, getLsbD_packXKK]
  interval_cases i <;> simp

theorem maskXY (a n x y : Nibble) : packXYN a x y n &&& 0xF00F#16 = packXYN a 0x0#4 0x0#4 n := by
  apply BitVec.eq_of_getLsbD_eq; intro i hi
  rw [BitVec.getLsbD_and, getLsbD_packXYN, getLsbD_packXYN]
  interval_cases i <;> simp

theorem maskXYN (a x y n : Nibble) : packXYN a x y n &&& 0xF000#16 = packXYN a 0x0#4 0x0#4 0x0#4 := by
  apply BitVec.eq_of_getLsbD_eq; intro i hi
  rw [BitVec.getLsbD_and, getLsbD_packXYN, getLsbD_packXYN]
  interval_cases i <;> simp

/-! ## The family -/

theorem EncodesRow.cls : EncodesRow.Statement .cls := rfl
theorem EncodesRow.ret : EncodesRow.Statement .ret := rfl
theorem EncodesRow.jp (nnn : Addr) : EncodesRow.Statement (.jp nnn) := maskNNN _ nnn
theorem EncodesRow.call (nnn : Addr) : EncodesRow.Statement (.call nnn) := maskNNN _ nnn
theorem EncodesRow.seImm (x : Nibble) (kk : Byte) : EncodesRow.Statement (.seImm x kk) := maskXKK _ x kk
theorem EncodesRow.sneImm (x : Nibble) (kk : Byte) : EncodesRow.Statement (.sneImm x kk) := maskXKK _ x kk
theorem EncodesRow.seReg (x : Nibble) (y : Nibble) : EncodesRow.Statement (.seReg x y) := maskXY _ _ x y
theorem EncodesRow.sneReg (x : Nibble) (y : Nibble) : EncodesRow.Statement (.sneReg x y) := maskXY _ _ x y
theorem EncodesRow.ldImm (x : Nibble) (kk : Byte) : EncodesRow.Statement (.ldImm x kk) := maskXKK _ x kk
theorem EncodesRow.addImm (x : Nibble) (kk : Byte) : EncodesRow.Statement (.addImm x kk) := maskXKK _ x kk
theorem EncodesRow.ldReg (x : Nibble) (y : Nibble) : EncodesRow.Statement (.ldReg x y) := maskXY _ _ x y
theorem EncodesRow.or (x : Nibble) (y : Nibble) : EncodesRow.Statement (.or x y) := maskXY _ _ x y
theorem EncodesRow.and (x : Nibble) (y : Nibble) : EncodesRow.Statement (.and x y) := maskXY _ _ x y
theorem EncodesRow.xor (x : Nibble) (y : Nibble) : EncodesRow.Statement (.xor x y) := maskXY _ _ x y
theorem EncodesRow.addReg (x : Nibble) (y : Nibble) : EncodesRow.Statement (.addReg x y) := maskXY _ _ x y
theorem EncodesRow.sub (x : Nibble) (y : Nibble) : EncodesRow.Statement (.sub x y) := maskXY _ _ x y
theorem EncodesRow.shr (x : Nibble) (y : Nibble) : EncodesRow.Statement (.shr x y) := maskXY _ _ x y
theorem EncodesRow.subn (x : Nibble) (y : Nibble) : EncodesRow.Statement (.subn x y) := maskXY _ _ x y
theorem EncodesRow.shl (x : Nibble) (y : Nibble) : EncodesRow.Statement (.shl x y) := maskXY _ _ x y
theorem EncodesRow.ldI (nnn : Addr) : EncodesRow.Statement (.ldI nnn) := maskNNN _ nnn
theorem EncodesRow.ldIV0 (nnn : Addr) : EncodesRow.Statement (.ldIV0 nnn) := maskNNN _ nnn
theorem EncodesRow.rnd (x : Nibble) (kk : Byte) : EncodesRow.Statement (.rnd x kk) := maskXKK _ x kk
theorem EncodesRow.drw (x : Nibble) (y : Nibble) (n : Nibble) : EncodesRow.Statement (.drw x y n) := maskXYN _ x y n
theorem EncodesRow.skp (x : Nibble) : EncodesRow.Statement (.skp x) := maskX _ _ x
theorem EncodesRow.sknp (x : Nibble) : EncodesRow.Statement (.sknp x) := maskX _ _ x
theorem EncodesRow.ldVxDt (x : Nibble) : EncodesRow.Statement (.ldVxDt x) := maskX _ _ x
theorem EncodesRow.ldVxK (x : Nibble) : EncodesRow.Statement (.ldVxK x) := maskX _ _ x
theorem EncodesRow.ldDtVx (x : Nibble) : EncodesRow.Statement (.ldDtVx x) := maskX _ _ x
theorem EncodesRow.ldStVx (x : Nibble) : EncodesRow.Statement (.ldStVx x) := maskX _ _ x
theorem EncodesRow.addIVx (x : Nibble) : EncodesRow.Statement (.addIVx x) := maskX _ _ x
theorem EncodesRow.ldFVx (x : Nibble) : EncodesRow.Statement (.ldFVx x) := maskX _ _ x
theorem EncodesRow.ldBVx (x : Nibble) : EncodesRow.Statement (.ldBVx x) := maskX _ _ x
theorem EncodesRow.stRegs (x : Nibble) : EncodesRow.Statement (.stRegs x) := maskX _ _ x
theorem EncodesRow.ldRegs (x : Nibble) : EncodesRow.Statement (.ldRegs x) := maskX _ _ x
theorem EncodesRow.halt0 : EncodesRow.Statement .halt0 := rfl

end Laws

end Sys2Proof
end

