-- ==== Sys2Proof/Tests/Slice0.lean ====
section
/-! SUPPORT. Tests: the ill-formed words that WellFormed refuses, one word per constructor written out from the patterns of
30_encoding.md rule R50, single ticks from the vectors of 95_test_vectors.md (each theorem names its vectors; all were
derived by hand there), and for every statement of Certificates/Slice0/Obligations.lean that has hypotheses a witness that
meets them. -/

namespace Sys2Proof.Tests

open Sys2Proof Sys2Proof.Machine

/-- The base state of the vectors: reset, the opcode stored where the tick fetches, the mask of the tick. -/
def base (op : Nat) (keys : KeyMask) : State := { State.reset.withFetchWord 16 op with keyFeed := [keys] }

/-- Write registers. -/
def withRegs (s : State) (l : List (Nibble × Byte)) : State := l.foldl (fun t p => t.setReg p.1 p.2) s

/-- Write bytes of memory. -/
def withBytes (s : State) (a : Nat) (bs : List Byte) : State := { s with mem := Mem.writeList s.mem a bs }

/-- The state a step answers. -/
def after (s : State) : State :=
  match step s with
  | .next t => t
  | .fault _ => s
  | .refused _ => s

/-- The state an instruction answers. -/
def done (i : Instr) (s : State) : State :=
  match exec i s with
  | .next t => t
  | .fault _ => s
  | .refused _ => s

/-- The columns of a row that are on. -/
def rowLit (s : State) (y : Nat) : List Nat := (List.range 64).filter (fun x => s.getPixel x y)

/-- The rows with a pixel on. -/
def rowsLit (s : State) : List Nat := (List.range 32).filter (fun y => rowLit s y != [])

/-! ## WellFormed: ill-formed words, one check each (vE3, vE4, vE10, vE12, vE15, vE20, vE22) -/

theorem test_illformed_group0 : wellFormedWord 0x0123#16 = false ∧ wellFormedWord 0x00E1#16 = false := by decide
theorem test_illformed_sentinel : wellFormedWord 0x0000#16 = false := by decide
theorem test_illformed_group5 : wellFormedWord 0x5AB1#16 = false := by decide
theorem test_illformed_group8 : wellFormedWord 0x8AB8#16 = false ∧ wellFormedWord 0x8ABF#16 = false := by decide
theorem test_illformed_group9 : wellFormedWord 0x9AB8#16 = false := by decide
theorem test_illformed_groupE : wellFormedWord 0xE59F#16 = false ∧ wellFormedWord 0xE5A2#16 = false := by decide
theorem test_illformed_groupF : wellFormedWord 0xF508#16 = false ∧ wellFormedWord 0xF575#16 = false := by decide

/-- The decoder refuses them too, by name. -/
theorem test_reject_by_name :
    decodeBytes [0x8A#8, 0xB8#8] = .error (.invalid 0x8AB8#16) ∧ decodeBytes [0x12#8] = .error .truncated := by decide

/-! ## Decoding: words written out bit by bit (vE1 to vE22; table of rule R50) -/

theorem test_decode_cls : decode 0b0000000011100000#16 = some .cls := by decide
theorem test_decode_ret : decode 0b0000000011101110#16 = some .ret := by decide
theorem test_decode_jp : decode 0b0001101010111100#16 = some (.jp 0xABC#12) := by decide
theorem test_decode_call : decode 0b0010001000000000#16 = some (.call 0x200#12) := by decide
theorem test_decode_seImm : decode 0b0011101001111111#16 = some (.seImm 0xA#4 0x7F#8) := by decide
theorem test_decode_sneImm : decode 0b0100101001111111#16 = some (.sneImm 0xA#4 0x7F#8) := by decide
theorem test_decode_seReg : decode 0b0101101010110000#16 = some (.seReg 0xA#4 0xB#4) := by decide
theorem test_decode_sneReg : decode 0b1001101010110000#16 = some (.sneReg 0xA#4 0xB#4) := by decide
theorem test_decode_ldImm : decode 0b0110110000000001#16 = some (.ldImm 0xC#4 0x01#8) := by decide
theorem test_decode_addImm : decode 0b0111110000000001#16 = some (.addImm 0xC#4 0x01#8) := by decide
theorem test_decode_ldReg : decode 0b1000101010110000#16 = some (.ldReg 0xA#4 0xB#4) := by decide
theorem test_decode_or : decode 0b1000101010110001#16 = some (.or 0xA#4 0xB#4) := by decide
theorem test_decode_and : decode 0b1000101010110010#16 = some (.and 0xA#4 0xB#4) := by decide
theorem test_decode_xor : decode 0b1000101010110011#16 = some (.xor 0xA#4 0xB#4) := by decide
theorem test_decode_addReg : decode 0b1000101010110100#16 = some (.addReg 0xA#4 0xB#4) := by decide
theorem test_decode_sub : decode 0b1000101010110101#16 = some (.sub 0xA#4 0xB#4) := by decide
theorem test_decode_shr : decode 0b1000101010110110#16 = some (.shr 0xA#4 0xB#4) := by decide
theorem test_decode_subn : decode 0b1000101010110111#16 = some (.subn 0xA#4 0xB#4) := by decide
theorem test_decode_shl : decode 0b1000101010111110#16 = some (.shl 0xA#4 0xB#4) := by decide
theorem test_decode_ldI : decode 0b1010000100100011#16 = some (.ldI 0x123#12) := by decide
theorem test_decode_ldIV0 : decode 0b1011000100100011#16 = some (.ldIV0 0x123#12) := by decide
theorem test_decode_rnd : decode 0b1100010111110000#16 = some (.rnd 0x5#4 0xF0#8) := by decide
theorem test_decode_drw : decode 0b1101000100101111#16 = some (.drw 0x1#4 0x2#4 0xF#4) := by decide
theorem test_decode_skp : decode 0b1110010110011110#16 = some (.skp 0x5#4) := by decide
theorem test_decode_sknp : decode 0b1110010110100001#16 = some (.sknp 0x5#4) := by decide
theorem test_decode_ldVxDt : decode 0b1111010100000111#16 = some (.ldVxDt 0x5#4) := by decide
theorem test_decode_ldVxK : decode 0b1111010100001010#16 = some (.ldVxK 0x5#4) := by decide
theorem test_decode_ldDtVx : decode 0b1111010100010101#16 = some (.ldDtVx 0x5#4) := by decide
theorem test_decode_ldStVx : decode 0b1111010100011000#16 = some (.ldStVx 0x5#4) := by decide
theorem test_decode_addIVx : decode 0b1111010100011110#16 = some (.addIVx 0x5#4) := by decide
theorem test_decode_ldFVx : decode 0b1111010100101001#16 = some (.ldFVx 0x5#4) := by decide
theorem test_decode_ldBVx : decode 0b1111010100110011#16 = some (.ldBVx 0x5#4) := by decide
theorem test_decode_stRegs : decode 0b1111010101010101#16 = some (.stRegs 0x5#4) := by decide
theorem test_decode_ldRegs : decode 0b1111010101100101#16 = some (.ldRegs 0x5#4) := by decide
theorem test_decode_halt0 : identify 0b0000000000000000#16 = some .halt0 := by decide

/-! ## Reset and the tick (2.2) -/

/-- 10_state.md R23: the state the interface calls reset is `applyReset` with the default FONT. -/
theorem test_reset_is_applyReset :
    State.reset = State.reset.applyReset ⟨fontBytes.toArray, rfl⟩ Config.seed := by rfl

/-- 20_memory.md R32: the font is at 0x1B0..0x1FF (vM21 lists its first bytes). -/
theorem test_font_bytes :
    (List.range 6).map (fun j => Mem.read State.reset.mem (0x1B0 + j)) = [0xF0#8, 0x90#8, 0x90#8, 0x90#8, 0xF0#8, 0x20#8] ∧
      Mem.read State.reset.mem 0x1FF = 0x80#8 ∧ Mem.read State.reset.mem 0x200 = 0x00#8 := by decide

/-- vT1. -/
theorem test_sentinel_keeps_timers :
    let t := after { base 0x0000 0x0000#16 with dt := 0x05#8, st := 0x05#8 }
    t.result = .ok ∧ t.pc = 0x200#12 ∧ t.dt = 0x05#8 ∧ t.st = 0x05#8 := by decide

/-- vT3. -/
theorem test_invalid_opcode :
    (after (base 0x0001 0x0000#16)).Raised .invalidInstruction 0x200#12 0x0001#16 := by decide

/-- 60_exceptions.md R130: the five codes. -/
theorem test_error_codes :
    ErrorKind.invalidInstruction.code = 1#3 ∧ ErrorKind.stackOverflow.code = 2#3 ∧ ErrorKind.stackUnderflow.code = 3#3 ∧
      ErrorKind.invalidKey.code = 4#3 ∧ (ErrorKind.addressOutOfRange 0x10FE).code = 5#3 := by decide

/-- vT4. -/
theorem test_error_is_latched :
    (after (after (base 0x0001 0x0000#16))).Raised .invalidInstruction 0x200#12 0x0001#16 := by decide

/-- vT5: the value 0x1000 is the address of the missing byte, and the opcode is reported as 0 (60_exceptions.md R130). -/
theorem test_fetch_past_top :
    (after (withBytes { State.reset with pc := 0xFFF#12, keyFeed := [0x0000#16] } 0xFFF [0x60#8])).Raised
      (.addressOutOfRange 0x1000) 0xFFF#12 0x0000#16 := by decide

/-- vT6. -/
theorem test_advance_past_top :
    (after (withBytes { State.reset with pc := 0xFFE#12, keyFeed := [0x0000#16] } 0xFFE [0x60#8, 0x00#8])).Raised
      (.addressOutOfRange 0x1000) 0xFFE#12 0x6000#16 := by decide

/-- vT12. -/
theorem test_key_then_sentinel :
    let t := after { State.reset with waitForKey := some 0x3#4, dt := 0x09#8, pc := 0x202#12, keyFeed := [0x8000#16] }
    t.result = .ok ∧ t.reg 0x3#4 = 0x0F#8 ∧ t.waitForKey = none ∧ t.pc = 0x202#12 ∧ t.dt = 0x09#8 := by decide

/-- vT13. -/
theorem test_wait_without_key :
    let t := after { State.reset with waitForKey := some 0x3#4, pc := 0xFFF#12, keyFeed := [0x0000#16] }
    t.result = .ok ∧ t.waitForKey = some 0x3#4 ∧ t.pc = 0xFFF#12 := by decide

/-! ## Control transfer (2.3) -/

/-- vT9: a jump to itself, one timer step. -/
theorem test_jp :
    let t := after { base 0x1200 0x0000#16 with dt := 0x03#8, st := 0x01#8 }
    t.result = .ok ∧ t.pc = 0x200#12 ∧ t.dt = 0x02#8 ∧ t.st = 0x00#8 ∧ t.soundActive = false := by decide

/-- vC3. -/
theorem test_call :
    let t := done (.call 0xABC#12) { State.reset with pc := 0x300#12, sp := 3 }
    t.result = .ok ∧ t.stack[3] = 0x302#12 ∧ t.sp = 4 ∧ t.pc = 0xABC#12 := by decide

/-- vC4, vC5, vC6: the full stack is found first. -/
theorem test_call_errors :
    (done (.call 0xABC#12) { State.reset with sp := 16 }).Raised .stackOverflow 0x200#12 0x2ABC#16 ∧
      (done (.call 0xABC#12) { State.reset with pc := 0xFFE#12 }).Raised
        (.addressOutOfRange 0x1000) 0xFFE#12 0x2ABC#16 ∧
      (done (.call 0xABC#12) { State.reset with pc := 0xFFE#12, sp := 16 }).Raised
        .stackOverflow 0xFFE#12 0x2ABC#16 := by decide

/-- vC8. -/
theorem test_ret :
    let t := after { base 0x00EE 0x0000#16 with
      sp := 2, stack := (State.reset.stack.set 0 0x111#12).set 1 0x456#12 }
    t.result = .ok ∧ t.sp = 1 ∧ t.pc = 0x456#12 := by decide

/-- vC7. -/
theorem test_ret_underflow :
    (after (base 0x00EE 0x0000#16)).Raised .stackUnderflow 0x200#12 0x00EE#16 := by decide

/-- vC9, vC10. -/
theorem test_seImm :
    (after (withRegs (base 0x3342 0x0000#16) [(0x3#4, 0x42#8)])).pc = 0x204#12 ∧
      (after (withRegs (base 0x3342 0x0000#16) [(0x3#4, 0x43#8)])).pc = 0x202#12 := by decide

/-- vC11, vC12. -/
theorem test_sneImm :
    (after (withRegs (base 0x4342 0x0000#16) [(0x3#4, 0x42#8)])).pc = 0x202#12 ∧
      (after (withRegs (base 0x4342 0x0000#16) [(0x3#4, 0x43#8)])).pc = 0x204#12 := by decide

/-- vC13, vC14. -/
theorem test_seReg :
    (after (withRegs (base 0x5120 0x0000#16) [(0x1#4, 0x07#8), (0x2#4, 0x07#8)])).pc = 0x204#12 ∧
      (after (withRegs (base 0x5120 0x0000#16) [(0x1#4, 0x07#8), (0x2#4, 0x08#8)])).pc = 0x202#12 := by decide

/-- vC16, vC17. -/
theorem test_sneReg :
    (after (withRegs (base 0x9120 0x0000#16) [(0x1#4, 0x07#8), (0x2#4, 0x07#8)])).pc = 0x202#12 ∧
      (after (withRegs (base 0x9120 0x0000#16) [(0x1#4, 0x07#8), (0x2#4, 0x08#8)])).pc = 0x204#12 := by decide

/-- vC19: a taken skip past the top; vC20: not taken. -/
theorem test_skip_past_top :
    (done (.seImm 0x0#4 0x00#8) { State.reset with pc := 0xFFC#12 }).Raised
        (.addressOutOfRange 0x1000) 0xFFC#12 0x3000#16 ∧
      (done (.seImm 0x0#4 0x01#8) { State.reset with pc := 0xFFC#12 }).pc = 0xFFE#12 := by decide

/-! ## The ALU (2.4) -/

/-- vA1. -/
theorem test_ldImm : (after (base 0x6AFF 0x0000#16)).reg 0xA#4 = 0xFF#8 := by decide

/-- vT8: an odd `pc`. -/
theorem test_ldImm_odd_pc :
    let t := after (withBytes { State.reset with pc := 0x201#12, keyFeed := [0x0000#16] } 0x201 [0x6A#8, 0x55#8])
    t.result = .ok ∧ t.reg 0xA#4 = 0x55#8 ∧ t.pc = 0x203#12 := by decide

/-- vA2. -/
theorem test_addImm :
    let t := after (withRegs (base 0x7102 0x0000#16) [(0x1#4, 0xFF#8), (0xF#4, 0x55#8)])
    t.reg 0x1#4 = 0x01#8 ∧ t.reg 0xF#4 = 0x55#8 := by decide

/-- vA4. -/
theorem test_ldReg :
    let t := after (withRegs (base 0x8120 0x0000#16) [(0x1#4, 0x01#8), (0x2#4, 0x99#8)])
    t.reg 0x1#4 = 0x99#8 ∧ t.reg 0x2#4 = 0x99#8 := by decide

/-- vA5. -/
theorem test_or :
    let t := after (withRegs (base 0x8121 0x0000#16) [(0x1#4, 0xA1#8), (0x2#4, 0x42#8), (0xF#4, 0x77#8)])
    t.reg 0x1#4 = 0xE3#8 ∧ t.reg 0xF#4 = 0x77#8 := by decide

/-- vA6. -/
theorem test_and :
    let t := after (withRegs (base 0x8122 0x0000#16) [(0x1#4, 0xA1#8), (0x2#4, 0x43#8), (0xF#4, 0x77#8)])
    t.reg 0x1#4 = 0x01#8 ∧ t.reg 0xF#4 = 0x77#8 := by decide

/-- vA7. -/
theorem test_xor :
    let t := after (withRegs (base 0x8123 0x0000#16) [(0x1#4, 0xA1#8), (0x2#4, 0x43#8), (0xF#4, 0x77#8)])
    t.reg 0x1#4 = 0xE2#8 ∧ t.reg 0xF#4 = 0x77#8 := by decide

/-- vA11 and the second half of vS4. -/
theorem test_addReg :
    let t := after (withRegs (base 0x8124 0x0000#16) [(0x1#4, 0xE3#8), (0x2#4, 0x42#8)])
    let u := after (withRegs (base 0x8124 0x0000#16) [(0x1#4, 0x80#8), (0x2#4, 0x7F#8), (0xF#4, 0x01#8)])
    t.reg 0x1#4 = 0x25#8 ∧ t.reg 0xF#4 = 0x01#8 ∧ u.reg 0x1#4 = 0xFF#8 ∧ u.reg 0xF#4 = 0x00#8 := by decide

/-- vA17, vA18: the flag wins. -/
theorem test_addReg_into_vf :
    (after (withRegs (base 0x8F14 0x0000#16) [(0xF#4, 0xFF#8), (0x1#4, 0x02#8)])).reg 0xF#4 = 0x01#8 ∧
      (after (withRegs (base 0x8F14 0x0000#16) [(0xF#4, 0x01#8), (0x1#4, 0x01#8)])).reg 0xF#4 = 0x00#8 := by decide

/-- vS5: no borrow, and borrow. -/
theorem test_sub :
    let t := after (withRegs (base 0x8125 0x0000#16) [(0x1#4, 0xA1#8), (0x2#4, 0x43#8)])
    let u := after (withRegs (base 0x8125 0x0000#16) [(0x1#4, 0x43#8), (0x2#4, 0xA1#8)])
    t.reg 0x1#4 = 0x5E#8 ∧ t.reg 0xF#4 = 0x01#8 ∧ u.reg 0x1#4 = 0xA2#8 ∧ u.reg 0xF#4 = 0x00#8 := by decide

/-- vA16: the old `VF` is the subtrahend. -/
theorem test_sub_vf :
    let t := after (withRegs (base 0x81F5 0x0000#16) [(0x1#4, 0x05#8), (0xF#4, 0x07#8)])
    t.reg 0x1#4 = 0xFE#8 ∧ t.reg 0xF#4 = 0x00#8 := by decide

/-- vA23: the source is `Vy`. -/
theorem test_shr :
    let t := after (withRegs (base 0x8126 0x0000#16) [(0x1#4, 0xFF#8), (0x2#4, 0x5B#8)])
    t.reg 0x1#4 = 0x2D#8 ∧ t.reg 0x2#4 = 0x5B#8 ∧ t.reg 0xF#4 = 0x01#8 := by decide

/-- vA29: the result first, then the flag. -/
theorem test_shr_into_vf :
    (after (withRegs (base 0x8F16 0x0000#16) [(0x1#4, 0x02#8), (0xF#4, 0x01#8)])).reg 0xF#4 = 0x00#8 := by decide

/-- vA30, vA32. -/
theorem test_subn :
    let t := after (withRegs (base 0x8127 0x0000#16) [(0x1#4, 0x43#8), (0x2#4, 0xA1#8)])
    let u := after (withRegs (base 0x8127 0x0000#16) [(0x1#4, 0x06#8), (0x2#4, 0x05#8), (0xF#4, 0x01#8)])
    t.reg 0x1#4 = 0x5E#8 ∧ t.reg 0xF#4 = 0x01#8 ∧ u.reg 0x1#4 = 0xFF#8 ∧ u.reg 0xF#4 = 0x00#8 := by decide

/-- vA34. -/
theorem test_shl :
    let t := after (withRegs (base 0x812E 0x0000#16) [(0x1#4, 0x00#8), (0x2#4, 0xA5#8)])
    t.reg 0x1#4 = 0x4A#8 ∧ t.reg 0x2#4 = 0xA5#8 ∧ t.reg 0xF#4 = 0x01#8 := by decide

/-- vA38. -/
theorem test_shl_into_vf :
    (after (withRegs (base 0x8F1E 0x0000#16) [(0x1#4, 0x81#8)])).reg 0xF#4 = 0x01#8 := by decide

/-! ## `I` and memory (2.5) -/

/-- vM1. -/
theorem test_ldI : (after (base 0xAFFF 0x0000#16)).iReg = 0xFFF#12 := by decide

/-- vM2: no jump. -/
theorem test_ldIV0 :
    let t := after (withRegs (base 0xB2F0 0x0000#16) [(0x0#4, 0x10#8)])
    t.iReg = 0x300#12 ∧ t.pc = 0x202#12 := by decide

/-- vM4. -/
theorem test_ldIV0_range :
    (after (withRegs (base 0xBF01 0x0000#16) [(0x0#4, 0xFF#8)])).Raised
      (.addressOutOfRange 0x1000) 0x200#12 0xBF01#16 := by decide

/-- vM6. -/
theorem test_addIVx :
    (after (withRegs { base 0xF41E 0x0000#16 with iReg := 0xF00#12 } [(0x4#4, 0xFF#8)])).iReg = 0xFFF#12 := by decide

/-- vM7. -/
theorem test_addIVx_range :
    (after (withRegs { base 0xF41E 0x0000#16 with iReg := 0xFFF#12 } [(0x4#4, 0x01#8)])).Raised
      (.addressOutOfRange 0x1000) 0x200#12 0xF41E#16 := by decide

/-- vM9, vM10: unmasked. -/
theorem test_ldFVx :
    (after (withRegs (base 0xF029 0x0000#16) [(0x0#4, 0x09#8)])).iReg = 0x1DD#12 ∧
      (after (withRegs (base 0xF029 0x0000#16) [(0x0#4, 0xFF#8)])).iReg = 0x6AB#12 := by decide

/-- vM12: the last place it fits. -/
theorem test_ldBVx :
    let t := after (withRegs { base 0xF033 0x0000#16 with iReg := 0xFFD#12 } [(0x0#4, 0x7B#8)])
    Mem.read t.mem 0xFFD = 0x01#8 ∧ Mem.read t.mem 0xFFE = 0x02#8 ∧ Mem.read t.mem 0xFFF = 0x03#8 ∧
      t.iReg = 0xFFD#12 := by decide

/-- vM13. -/
theorem test_ldBVx_range :
    (after (withRegs { base 0xF033 0x0000#16 with iReg := 0xFFE#12 } [(0x0#4, 0x7B#8)])).Raised
      (.addressOutOfRange 0x1000) 0x200#12 0xF033#16 := by decide

/-- vM14: inclusive of `Vx`, and no further. -/
theorem test_stRegs :
    let t := after (withRegs { base 0xF255 0x0000#16 with iReg := 0x400#12 }
      [(0x0#4, 0x11#8), (0x1#4, 0x22#8), (0x2#4, 0x33#8), (0x3#4, 0x44#8)])
    (List.range 4).map (fun j => Mem.read t.mem (0x400 + j)) = [0x11#8, 0x22#8, 0x33#8, 0x00#8] ∧
      t.iReg = 0x403#12 := by decide

/-- vM18: the bytes fit, `I` does not. -/
theorem test_stRegs_range :
    (after { base 0xFF55 0x0000#16 with iReg := 0xFF0#12 }).Raised
      (.addressOutOfRange 0x1000) 0x200#12 0xFF55#16 := by decide

/-- vM20. -/
theorem test_ldRegs :
    let t := after (withRegs (withBytes { base 0xF265 0x0000#16 with iReg := 0x300#12 }
      0x300 [0x02#8, 0x03#8, 0x04#8, 0x05#8]) [(0x3#4, 0x99#8)])
    t.reg 0x0#4 = 0x02#8 ∧ t.reg 0x1#4 = 0x03#8 ∧ t.reg 0x2#4 = 0x04#8 ∧ t.reg 0x3#4 = 0x99#8 ∧
      t.iReg = 0x303#12 := by decide

/-- vM21: `x = F` loads `VF` too. -/
theorem test_ldRegs_all :
    let t := after { base 0xFF65 0x0000#16 with iReg := 0x1B0#12 }
    t.reg 0x0#4 = 0xF0#8 ∧ t.reg 0x5#4 = 0x20#8 ∧ t.reg 0xF#4 = 0xF0#8 ∧ t.iReg = 0x1C0#12 := by decide

/-! ## Random byte (2.6) -/

/-- vR1: mask 0, whatever the byte is. -/
theorem test_rnd_mask0 (s : State) (h : s.AdvanceFits) : (done (.rnd 0x3#4 0x00#8) s).reg 0x3#4 = 0x00#8 := by
  have e : done (.rnd 0x3#4 0x00#8) s = (s.drawRandom.setReg 0x3#4 (s.randomByte &&& 0x00#8)).advance
    (.rnd 0x3#4 0x00#8) := rfl
  rw [e, State.advance_ok (s := s.drawRandom.setReg 0x3#4 _) _ h]
  exact (State.reg_setReg _ _ _ _).trans (by simp)

/-! ## Display (2.7) -/

/-- vG1: no flag. -/
theorem test_cls :
    let t := after (withRegs { base 0x00E0 0x0000#16 with
      fb := (State.reset.fb.set 0 0x1#64).set 31 0x8000000000000000#64 } [(0xF#4, 0x01#8)])
    rowsLit t = [] ∧ t.reg 0xF#4 = 0x01#8 := by decide

/-- vG2 (vS7). -/
theorem test_drw :
    let t := after (withBytes { base 0xD011 0x0000#16 with iReg := 0x300#12 } 0x300 [0x5A#8])
    rowLit t 0 = [1, 3, 4, 6] ∧ rowsLit t = [0] ∧ t.reg 0xF#4 = 0x00#8 := by decide

/-- vG7 (wrap in x) and vG8 (collision). -/
theorem test_drw_wrap_and_collision :
    let t := after (withRegs (withBytes { base 0xD011 0x0000#16 with iReg := 0x300#12 } 0x300 [0xC0#8])
      [(0x0#4, 0xFF#8), (0x1#4, 0xFF#8)])
    let u := after (withBytes { base 0xD011 0x0000#16 with iReg := 0x300#12, fb := State.reset.fb.set 0 0x2#64 }
      0x300 [0xC0#8])
    rowLit t 31 = [0, 63] ∧ rowsLit t = [31] ∧ rowLit u 0 = [0] ∧ u.reg 0xF#4 = 0x01#8 := by decide

/-! ## Keys and timers (2.8) -/

/-- vK1, vK2. -/
theorem test_skp :
    (after (withRegs (base 0xE19E 0x0008#16) [(0x1#4, 0x03#8)])).pc = 0x204#12 ∧
      (after (withRegs (base 0xE19E 0x0004#16) [(0x1#4, 0x03#8)])).pc = 0x202#12 := by decide

/-- vK4. -/
theorem test_skp_invalid :
    (after (withRegs (base 0xE19E 0xFFFF#16) [(0x1#4, 0x10#8)])).Raised .invalidKey 0x200#12 0xE19E#16 := by
  decide

/-- vK5, vK6. -/
theorem test_sknp :
    (after (withRegs (base 0xE1A1 0x0008#16) [(0x1#4, 0x03#8)])).pc = 0x202#12 ∧
      (after (withRegs (base 0xE1A1 0xFFF7#16) [(0x1#4, 0x03#8)])).pc = 0x204#12 := by decide

/-- vK7: no masking of the register value. -/
theorem test_sknp_invalid :
    (after (withRegs (base 0xE1A1 0x0000#16) [(0x1#4, 0xFF#8)])).Raised .invalidKey 0x200#12 0xE1A1#16 := by
  decide

/-- vK8: after the timer step. -/
theorem test_ldVxDt :
    let t := after { base 0xF207 0x0000#16 with dt := 0x80#8 }
    t.dt = 0x7F#8 ∧ t.reg 0x2#4 = 0x7F#8 := by decide

/-- vK11: the keys of the `Fx0A` tick itself are not captured. -/
theorem test_ldVxK :
    let t := after { base 0xF30A 0xFFFF#16 with dt := 0x03#8 }
    t.waitForKey = some 0x3#4 ∧ t.pc = 0x202#12 ∧ t.dt = 0x02#8 ∧ t.reg 0x3#4 = 0x00#8 := by decide

/-- vK13: a wait on `VF`, ended by a key, and the next instruction in the same tick. -/
theorem test_key_ends_wait :
    let t := after (withBytes { State.reset with
      waitForKey := some 0xF#4, pc := 0x202#12, keyFeed := [0x0020#16] } 0x202 [0x7F#8, 0x01#8])
    t.reg 0xF#4 = 0x06#8 ∧ t.waitForKey = none ∧ t.pc = 0x204#12 := by decide

/-- vK9. -/
theorem test_ldDtVx :
    (after (withRegs { base 0xF215 0x0000#16 with dt := 0x50#8 } [(0x2#4, 0x01#8)])).dt = 0x01#8 := by decide

/-- vK10. -/
theorem test_ldStVx :
    let t := after (withRegs (base 0xF218 0x0000#16) [(0x2#4, 0x02#8)])
    t.st = 0x02#8 ∧ t.soundActive = true := by decide

/-! ## Witnesses: states and operands that meet the hypotheses of a statement, each clause at a boundary of its range -/

/-- Encoding statements. -/
theorem test_witness_EncodeThenDecode :
    (Instr.drw 0xF#4 0xF#4 0xF#4).wellFormed = true ∧ Instr.halt0.wellFormed = true := by decide

theorem test_witness_DecodeThenEncode :
    identify 0xFF65#16 = some (.ldRegs 0xF#4) ∧ identify 0x0000#16 = some .halt0 := by decide

theorem test_witness_PatternsDoNotOverlap :
    (Instr.row (.xor 0 0)) ∈ opcodeTable ∧ (Instr.row (.xor 0 0)).matches 0x8AB3#16 = true := by decide

theorem test_witness_InvalidIffNoPattern :
    decode 0x8AB8#16 = none ∧ ∃ r ∈ opcodeTable, (0x8AB3#16 : Opcode) &&& r.mask = r.pattern := by decide

/-- Tick statements. -/
theorem test_witness_LatchedErrorStays :
    (after (base 0x0001 0x0000#16)).fault = some ⟨.invalidInstruction, 0x200#12, 0x0001#16⟩ := by decide

theorem test_witness_WaitingWithoutKeyIsIdentity :
    let s : State := { State.reset with waitForKey := some 0xF#4, keyFeed := [0x0000#16] }
    s.WaitingOn 0xF#4 ∧ s.nextKeys = 0x0000#16 := by decide

theorem test_witness_WaitEndsWithLowestKey :
    let s : State := { State.reset with waitForKey := some 0x0#4, keyFeed := [0x8000#16] }
    s.WaitingOn 0x0#4 ∧ s.nextKeys ≠ 0x0000#16 := by decide

theorem test_witness_FetchPastTopRaises :
    let s : State := { State.reset with pc := 0xFFF#12 }
    s.Running ∧ s.pc = 0xFFF#12 := by decide

theorem test_witness_SentinelHalts :
    State.reset.Halted ∧ ({ State.reset with pc := 0xFFE#12 } : State).Halted := by decide

theorem test_witness_InvalidOpcodeRaises :
    (base 0xFFFF 0x0000#16).Running ∧ (base 0xFFFF 0x0000#16).Fetches 0xFFFF#16 ∧ (0xFFFF#16 : Opcode) ≠ 0x0000#16 ∧
      decode 0xFFFF#16 = none := by decide

theorem test_witness_StepRunsDecodedInstruction :
    (base 0x8124 0x0000#16).Running ∧ (base 0x8124 0x0000#16).Fetches 0x8124#16 ∧ (0x8124#16 : Opcode) ≠ 0x0000#16 ∧
      decode 0x8124#16 = some (.addReg 0x1#4 0x2#4) ∧ (Instr.addReg 0x1#4 0x2#4).wellFormed = true := by decide

/-- Both clauses: a tick that writes neither timer, from 255 and from 0. -/
theorem test_witness_TimersCountDown :
    let s : State := { base 0x6AFF 0x0000#16 with dt := 0xFF#8, st := 0x00#8 }
    s.Running ∧ s.Fetches 0x6AFF#16 ∧ (0x6AFF#16 : Opcode) ≠ 0x0000#16 ∧ step s = .next (after s) ∧
      (after s).fault = none ∧ (∀ x, (0x6AFF#16 : Opcode) ≠ encode (.ldDtVx x)) ∧
      (∀ x, (0x6AFF#16 : Opcode) ≠ encode (.ldStVx x)) ∧ (after s).dt = 0xFE#8 ∧ (after s).st = 0x00#8 :=
  ⟨by decide, by decide, by decide, rfl, by decide, by decide, by decide, by decide, by decide⟩

/-- Each of the places `pc` can go. -/
theorem test_witness_ProgramCounterTargets :
    (step State.reset = .next (after State.reset) ∧ (after State.reset).fault = none) ∧
    (let s := base 0x6AFF 0x0000#16; step s = .next (after s) ∧ (after s).fault = none ∧ (after s).pc = 0x202#12) ∧
    (let s := base 0x3000 0x0000#16; step s = .next (after s) ∧ (after s).fault = none ∧ (after s).pc = 0x204#12) ∧
    (let s := base 0x1FFF 0x0000#16; step s = .next (after s) ∧ (after s).fault = none ∧ (after s).pc = 0xFFF#12) ∧
    (let s : State := { base 0x00EE 0x0000#16 with sp := 16 }
     step s = .next (after s) ∧ (after s).fault = none ∧ (after s).pc = 0x000#12) :=
  ⟨⟨rfl, by decide⟩, ⟨rfl, by decide, by decide⟩, ⟨rfl, by decide, by decide⟩, ⟨rfl, by decide, by decide⟩,
    ⟨rfl, by decide, by decide⟩⟩

/-- A running core and one whose wait ends execute `Cxkk`; another opcode, and a core left waiting, do not. -/
theorem test_witness_RandomAdvancesOnlyByRnd :
    (let s := base 0xC3FF 0x0000#16
     step s = .next (after s) ∧ (after s).fault = none ∧ s.Fetches (encode (.rnd 0x3#4 0xFF#8)) ∧
       s.waitForKey = none) ∧
    (let s : State := { base 0xC3FF 0x8000#16 with waitForKey := some 0x0#4 }
     step s = .next (after s) ∧ (after s).fault = none ∧ s.Fetches (encode (.rnd 0x3#4 0xFF#8)) ∧
       s.nextKeys ≠ 0x0000#16) ∧
    (let s := base 0x6AFF 0x0000#16
     step s = .next (after s) ∧ (after s).fault = none ∧ ∀ x kk, ¬ s.Fetches (encode (.rnd x kk))) ∧
    (let s : State := { base 0xC3FF 0x0000#16 with waitForKey := some 0x0#4 }
     step s = .next (after s) ∧ (after s).fault = none ∧ s.waitForKey ≠ none ∧ s.nextKeys = 0x0000#16) :=
  ⟨⟨rfl, by decide, by decide, by decide⟩, ⟨rfl, by decide, by decide, by decide⟩,
    ⟨rfl, by decide, fun x kk h => by
      have e : opN0 (encode (.rnd x kk)) = opN0 0x6AFF#16 := congrArg opN0 (h.2.symm.trans (by decide))
      rw [encode, opN0_packXKK] at e
      exact absurd e (by decide)⟩,
    ⟨rfl, by decide, by decide, by decide⟩⟩

theorem test_witness_ScreenChangesOnlyByClsAndDrw :
    (let s := base 0x00E0 0x0000#16; step s = .next (after s) ∧ (after s).fault = none) ∧
    (let s := base 0xD011 0x0000#16; step s = .next (after s) ∧ (after s).fault = none) ∧
    (let s := base 0x6AFF 0x0000#16; step s = .next (after s) ∧ (after s).fault = none) :=
  ⟨⟨rfl, by decide⟩, ⟨rfl, by decide⟩, ⟨rfl, by decide⟩⟩

/-- Memory statements. -/
theorem test_witness_ReadAfterWrite :
    Mem.wf [] = true ∧ (4095 < 4096) ∧ (0x1B0 ≠ 4095) ∧ Mem.wf [(0x200, 0x01#8)] = true := by decide

theorem test_witness_StoredOpcodeIsFetched :
    let s : State := { State.reset with iReg := 0x202#12 }
    Mem.wf s.mem = true ∧ s.fault = none ∧ 0x1 ≤ (0x1#4 : Nibble).toNat ∧ s.base = s.pc.toNat + 2 ∧
      exec (.stRegs 0x1#4) s = .next (done (.stRegs 0x1#4) s) ∧ (done (.stRegs 0x1#4) s).fault = none :=
  ⟨by decide, by decide, by decide, by decide, rfl, by decide⟩

/-- Error statements: no error, and one that the table names. -/
theorem test_witness_ErrorsAreTheTable :
    State.reset.fault = none ∧ errorOf .cls State.reset = none ∧ errorOf .ret State.reset = some .stackUnderflow ∧
      errorOf (.ldBVx 0x0#4) { State.reset with iReg := 0xFFE#12 } = some (.addressOutOfRange 0x1000) := by decide

theorem test_witness_KeyAboveFifteenRaises :
    15 < ((withRegs State.reset [(0x1#4, 0x10#8)]).reg 0x1#4).toNat := by decide

theorem test_witness_StepKeepsInvariant :
    (State.reset.Inv ∧ step State.reset = .next (after State.reset)) ∧
    (let s := base 0x0001 0x0000#16
     s.Inv ∧ step s = .next (after s) ∧ ¬ (after s).fault = none) :=
  ⟨⟨by decide, rfl⟩, ⟨by decide, rfl, by decide⟩⟩

/-- Frames: a register that is not `x`, and a register above `x` of `Fx65`. -/
theorem test_witness_OtherRegistersUnchanged :
    (exec (.addReg 0x1#4 0x2#4) State.reset = .next (done (.addReg 0x1#4 0x2#4) State.reset) ∧
      (done (.addReg 0x1#4 0x2#4) State.reset).fault = none ∧ writesReg (.addReg 0x1#4 0x2#4) 0x2#4 = false) ∧
    (exec (.ldRegs 0xE#4) State.reset = .next (done (.ldRegs 0xE#4) State.reset) ∧
      (done (.ldRegs 0xE#4) State.reset).fault = none ∧ writesReg (.ldRegs 0xE#4) 0xF#4 = false) :=
  ⟨⟨rfl, by decide, by decide⟩, ⟨rfl, by decide, by decide⟩⟩

theorem test_witness_OtherElementsUnchanged :
    exec (.ldImm 0x0#4 0xFF#8) State.reset = .next (done (.ldImm 0x0#4 0xFF#8) State.reset) ∧
      (done (.ldImm 0x0#4 0xFF#8) State.reset).fault = none ∧ writesI (.ldImm 0x0#4 0xFF#8) = false :=
  ⟨rfl, by decide, by decide⟩

theorem test_witness_OtherMemoryUnchanged :
    let s : State := { State.reset with iReg := 0xFFD#12 }
    Mem.wf s.mem = true ∧ exec (.ldBVx 0x0#4) s = .next (done (.ldBVx 0x0#4) s) ∧
      (done (.ldBVx 0x0#4) s).fault = none ∧ storesAt (.ldBVx 0x0#4) s 0xFFC = false ∧
      storesAt (.ldBVx 0x0#4) s 0xFFF = true :=
  ⟨by decide, rfl, by decide, by decide, by decide⟩

/-- Control transfer. -/
theorem test_witness_RetPops :
    0 < ({ State.reset with sp := 1 } : State).sp.val ∧ 0 < ({ State.reset with sp := 16 } : State).sp.val ∧
      State.reset.sp.val = 0 := by decide

theorem test_witness_CallPushes :
    (let s : State := { State.reset with sp := 15, pc := 0xFFD#12 }; s.sp.val < 16 ∧ s.AdvanceFits) ∧
    ({ State.reset with sp := 16 } : State).sp.val = 16 ∧
    (let s : State := { State.reset with sp := 15, pc := 0xFFE#12 }; s.sp.val < 16 ∧ ¬ s.AdvanceFits) := by decide

theorem test_witness_ReturnAfterCall :
    let t := done (.call 0xABC#12) State.reset
    let u : State := { State.reset with stack := t.stack, sp := t.sp }
    exec (.call 0xABC#12) State.reset = .next t ∧ t.fault = none ∧ u.stack = t.stack ∧ u.sp = t.sp :=
  ⟨rfl, by decide, rfl, rfl⟩

/-- The four clauses at the last `pc` from which the target is in range. -/
theorem test_witness_ImmediateSkips :
    let s : State := { State.reset with pc := 0xFFB#12 }
    let u : State := { State.reset with pc := 0xFFD#12 }
    s.reg 0x0#4 = 0x00#8 ∧ s.reg 0x0#4 ≠ 0xFF#8 ∧ s.SkipFits ∧
      u.reg 0x0#4 = 0x00#8 ∧ u.reg 0x0#4 ≠ 0xFF#8 ∧ u.AdvanceFits ∧ ¬ u.SkipFits := by decide

theorem test_witness_RegisterSkips :
    let s := withRegs { State.reset with pc := 0xFFB#12 } [(0x1#4, 0xFF#8)]
    let u := withRegs { State.reset with pc := 0xFFD#12 } [(0x1#4, 0xFF#8)]
    s.reg 0x1#4 = s.reg 0x1#4 ∧ s.reg 0x0#4 ≠ s.reg 0x1#4 ∧ s.SkipFits ∧
      u.reg 0x0#4 = u.reg 0x2#4 ∧ u.reg 0x0#4 ≠ u.reg 0x1#4 ∧ u.AdvanceFits := by decide

/-- The state the ALU, random, display and `LD I` witnesses share: the last `pc` that can advance. -/
def last : State := { State.reset with pc := 0xFFD#12 }

theorem test_witness_LdImmLoads : last.AdvanceFits ∧ (done (.ldImm 0xF#4 0xFF#8) last).result = .ok := by decide
theorem test_witness_AddImmWraps : last.AdvanceFits ∧ (done (.addImm 0xF#4 0xFF#8) last).result = .ok ∧
    (0x0#4 : Nibble) ≠ 0xF#4 := by decide
theorem test_witness_LdRegCopies : last.AdvanceFits ∧ (done (.ldReg 0xF#4 0x0#4) last).result = .ok := by decide
theorem test_witness_OrCombines : last.AdvanceFits ∧ (done (.or 0xF#4 0x0#4) last).result = .ok := by decide
theorem test_witness_AndCombines : last.AdvanceFits ∧ (done (.and 0xF#4 0x0#4) last).result = .ok := by decide
theorem test_witness_XorCombines : last.AdvanceFits ∧ (done (.xor 0xF#4 0xF#4) last).result = .ok := by decide
theorem test_witness_AddRegAndCarry : last.AdvanceFits ∧ (done (.addReg 0xE#4 0xF#4) last).result = .ok ∧
    (0xE#4 : Nibble) ≠ 0xF#4 ∧ (0x0#4 : Nibble) ≠ 0xE#4 ∧ (0x0#4 : Nibble) ≠ 0xF#4 := by decide
theorem test_witness_SubtractionsAndNotBorrow : last.AdvanceFits ∧ (done (.sub 0xE#4 0xF#4) last).result = .ok ∧
    (done (.subn 0xE#4 0xF#4) last).result = .ok ∧ (0xE#4 : Nibble) ≠ 0xF#4 := by decide
theorem test_witness_ShiftsAndBitOut : last.AdvanceFits ∧ (done (.shr 0xE#4 0xF#4) last).result = .ok ∧
    (done (.shl 0xE#4 0xF#4) last).result = .ok ∧ (0xE#4 : Nibble) ≠ 0xF#4 := by decide
theorem test_witness_LdILoads : last.AdvanceFits ∧ (done (.ldI 0xFFF#12) last).result = .ok := by decide

/-- The largest sum in range and the smallest out of it, for both instructions. -/
theorem test_witness_IndexSums :
    let s := withRegs { last with iReg := 0xF00#12 } [(0x0#4, 0xFF#8)]
    0xF00 + (s.reg 0x0#4).toNat ≤ 0xFFF ∧ s.AdvanceFits ∧ 0xFFF < 0xF01 + (s.reg 0x0#4).toNat ∧
      s.iReg.toNat + (s.reg 0x0#4).toNat ≤ 0xFFF ∧
      (let u : State := { s with iReg := 0xF01#12 }; 0xFFF < u.iReg.toNat + (u.reg 0x0#4).toNat) := by decide

theorem test_witness_LdFPointsAtGlyph :
    (withRegs last [(0x0#4, 0xFF#8)]).AdvanceFits ∧ (done (.ldFVx 0x0#4) last).result = .ok := by decide

theorem test_witness_LdBStoresDigits :
    let s : State := { last with iReg := 0xFFD#12 }
    let u : State := { last with iReg := 0xFFE#12 }
    Mem.wf s.mem = true ∧ s.base + 2 ≤ 0xFFF ∧ s.AdvanceFits ∧ 0xFFF < u.base + 2 := by decide

theorem test_witness_StRegsStoresAndAdvances :
    let s : State := { last with iReg := 0xFEF#12 }
    let u : State := { last with iReg := 0xFF0#12 }
    Mem.wf s.mem = true ∧ s.base + (0xF#4 : Nibble).toNat + 1 ≤ 0xFFF ∧ s.AdvanceFits ∧
      0xFFF < u.base + (0xF#4 : Nibble).toNat + 1 := by decide

theorem test_witness_LdRegsLoadsAndAdvances :
    let s : State := { last with iReg := 0xFFE#12 }
    let u : State := { last with iReg := 0xFFF#12 }
    s.base + (0x0#4 : Nibble).toNat + 1 ≤ 0xFFF ∧ s.AdvanceFits ∧ 0xFFF < u.base + (0x0#4 : Nibble).toNat + 1 := by
  decide

theorem test_witness_RndDrawsAndMasks : last.AdvanceFits ∧ (done (.rnd 0xF#4 0x81#8) last).result = .ok := by decide
theorem test_witness_ClsBlanksScreen : last.AdvanceFits ∧ (done .cls last).result = .ok := by decide

/-- The last sprite that fits, and the first that does not. -/
theorem test_witness_DrwInvertsSpritePixels :
    let s : State := { last with iReg := 0xFF1#12 }
    let u : State := { last with iReg := 0xFF2#12 }
    s.base + (0xF#4 : Nibble).toNat ≤ 0x1000 ∧ s.AdvanceFits ∧ 0x1000 < u.base + (0xF#4 : Nibble).toNat := by decide

theorem test_witness_DrwTwiceRestores :
    let s : State := { last with iReg := 0x1B0#12 }
    (0x0#4 : Nibble) ≠ 0xF#4 ∧ (0xE#4 : Nibble) ≠ 0xF#4 ∧
      exec (.drw 0x0#4 0xE#4 0x5#4) s = .next (done (.drw 0x0#4 0xE#4 0x5#4) s) ∧
      (done (.drw 0x0#4 0xE#4 0x5#4) s).fault = none :=
  ⟨by decide, by decide, rfl, by decide⟩

/-- Key 15 down and up, at the last `pc` in range. -/
theorem test_witness_KeySkips :
    let s := withRegs { State.reset with pc := 0xFFB#12, keys := 0x8000#16 } [(0x1#4, 0x0F#8)]
    let u := withRegs { last with keys := 0x7FFF#16 } [(0x1#4, 0x0F#8)]
    let w : State := { s with keys := 0x7FFF#16 }
    (s.reg 0x1#4).toNat ≤ 15 ∧ s.keys.getLsbD (s.reg 0x1#4).toNat = true ∧ s.SkipFits ∧ s.AdvanceFits ∧
      (w.reg 0x1#4).toNat ≤ 15 ∧ w.keys.getLsbD (w.reg 0x1#4).toNat = false ∧ w.SkipFits ∧
      (u.reg 0x1#4).toNat ≤ 15 ∧ u.keys.getLsbD (u.reg 0x1#4).toNat = false ∧ u.AdvanceFits := by decide

/-- A state at the last `pc` that can advance, with a timer instruction's word there. -/
def lastWith (op : Nat) : State := last.withFetchWord 16 op

theorem test_witness_LdVxDtReadsTimer :
    (lastWith 0xFF07).AdvanceFits ∧ (lastWith 0xFF07).Running ∧
      (lastWith 0xFF07).Fetches (packXKK 0xF#4 0xF#4 0x07#8) := by decide

theorem test_witness_LdVxKWaits : last.AdvanceFits ∧ (done (.ldVxK 0xF#4) last).result = .ok := by decide

theorem test_witness_LdDtVxSetsTimer :
    (lastWith 0xFF15).AdvanceFits ∧ (lastWith 0xFF15).Running ∧
      (lastWith 0xFF15).Fetches (packXKK 0xF#4 0xF#4 0x15#8) := by decide

theorem test_witness_LdStVxSetsTimer :
    (lastWith 0xFF18).AdvanceFits ∧ (lastWith 0xFF18).Running ∧
      (lastWith 0xFF18).Fetches (packXKK 0xF#4 0xF#4 0x18#8) := by decide

end Sys2Proof.Tests
end

section
/-! The tick of a running core (40_tick_cycle.md rules R63 to R66): what `step` does once the opcode at `pc` is known. -/

namespace Sys2Proof.Machine

/-- Phases 0 to 2 of a running core's tick: the keys are sampled, then the fetched opcode goes through phases 3 to 5. -/
theorem step_running_fetches {s : State} {op : Opcode} (hr : s.Running) (hop : s.Fetches op) :
    step s = s.sampleKeys.runOpcode op := by
  obtain ⟨hfault, hwait⟩ := hr
  have hop' : s.sampleKeys.Fetches op := hop
  calc step s = s.sampleKeys.runPhases := tick_running hfault hwait
    _ = s.sampleKeys.runOpcode op := State.runPhases_fetch hop'

/-- Rule R66: past the sentinel test, an opcode the decoder rejects is raised, the timers being stepped already. -/
theorem State.runOpcode_invalid (s : State) {op : Opcode} (h0 : op ≠ 0x0000#16) (hd : decode op = none) :
    s.runOpcode op = .next (s.stepTimers.raise .invalidInstruction op) := by
  simp only [State.runOpcode, if_neg h0, hd]

/-- Settles O13: the tick raises from the sampled state with its timers stepped, and neither phase moves `pc`. -/
theorem invalidOpcodeRaises : Obligations.InvalidOpcodeRaises := by
  intro s op hr hop h0 hd
  refine ⟨s.sampleKeys.stepTimers.raise .invalidInstruction op, ?_, ?_⟩
  · rw [step_running_fetches hr hop, State.runOpcode_invalid _ h0 hd]
  · exact State.raise_raised s.sampleKeys.stepTimers .invalidInstruction op

end Sys2Proof.Machine
end

section
/-! `1nnn` JP (41_control_flow.md rule R76): its word's reading, and a write of `pc` whose target is already an address. -/

namespace Sys2Proof.Machine

/-- A 12-bit target is always in range, so writing it to `pc` raises nothing. -/
theorem State.writePc_addr (s : State) (i : Instr) (a : Addr) : s.writePc i a.toNat = { s with pc := a } := by
  have inRange : a.toNat ≤ 0xFFF := Nat.le_of_lt_succ a.isLt
  rw [State.writePc_ok s i inRange, BitVec.ofNat_toNat, BitVec.setWidth_eq]

/-- First digit 1 selects JP, whatever the address digits are (30_encoding.md rule R49). -/
theorem decode_packNNN_jp (nnn : Addr) : decode (packNNN 0x1#4 nnn) = some (.jp nnn) := by
  simp only [decode, opN0_packNNN, opNnn_packNNN, BitVec.reduceToNat]

theorem exec_jp (nnn : Addr) (s : State) : exec (.jp nnn) s = .next (s.writePc (.jp nnn) nnn.toNat) := rfl

/-- Settles O29: the word's address field is read back, and the target `nnn` is never out of range. -/
theorem jpJumps : Obligations.JpJumps := by
  intro nnn s
  refine ⟨decode_packNNN_jp nnn, ?_⟩
  rw [exec_jp, State.writePc_addr]

end Sys2Proof.Machine
end

section
/-! The ALU's loads and the immediate addition (42_alu.md rules R85 to R87): each writes one register, sets no flag and
advances. What such an instruction leaves is said once, for any register and any byte. -/

namespace Sys2Proof.Machine

/-- One register written, then the automatic advance: the registers read back. -/
theorem State.reg_advance_setReg {s : State} (hfits : s.AdvanceFits) (i : Instr) (x : Nibble) (b : Byte) (r : Nibble) :
    ((s.setReg x b).advance i).reg r = if r = x then b else s.reg r := by
  have sameRegs : ((s.setReg x b).advance i).v = (s.setReg x b).v := by
    rw [State.advance_ok (s := s.setReg x b) i hfits]
  rw [State.reg_congr sameRegs, State.reg_setReg]
  simp only [eq_comm]

/-- One register written, then the automatic advance: nothing but the registers and `pc` changes. -/
theorem State.advance_setReg_frame {s : State} (hfits : s.AdvanceFits) (i : Instr) (x : Nibble) (b : Byte) :
    (s.setReg x b).advance i = { s with v := ((s.setReg x b).advance i).v, pc := s.pc + 2#12 } := by
  rw [State.advance_ok (s := s.setReg x b) i hfits]
  rfl

/-- First digit 6 selects LD Vx, kk (30_encoding.md rule R49). -/
theorem decode_packXKK_ldImm (x : Nibble) (kk : Byte) : decode (packXKK 0x6#4 x kk) = some (.ldImm x kk) := by
  simp only [decode, opN0_packXKK, opX_packXKK, opKk_packXKK, BitVec.reduceToNat]

/-- First digit 7 selects ADD Vx, kk (rule R49). -/
theorem decode_packXKK_addImm (x : Nibble) (kk : Byte) : decode (packXKK 0x7#4 x kk) = some (.addImm x kk) := by
  simp only [decode, opN0_packXKK, opX_packXKK, opKk_packXKK, BitVec.reduceToNat]

/-- First digit 8 selects the register group, whose instruction the last digit names (rule R49). -/
theorem decode_packXYN_group8 (x y n : Nibble) : decode (packXYN 0x8#4 x y n) = decodeGroup8 (packXYN 0x8#4 x y n) := by
  simp only [decode, opN0_packXYN, BitVec.reduceToNat]

/-- Last digit 0 of the register group is LD Vx, Vy. -/
theorem decode_packXYN_ldReg (x y : Nibble) : decode (packXYN 0x8#4 x y 0x0#4) = some (.ldReg x y) := by
  rw [decode_packXYN_group8]
  simp only [decodeGroup8, opN3_packXYN, opX_packXYN, opY_packXYN, BitVec.reduceToNat]

theorem exec_ldImm (x : Nibble) (kk : Byte) (s : State) :
    exec (.ldImm x kk) s = .next ((s.setReg x kk).advance (.ldImm x kk)) := rfl

theorem exec_addImm (x : Nibble) (kk : Byte) (s : State) :
    exec (.addImm x kk) s = .next ((s.setReg x (s.reg x + kk)).advance (.addImm x kk)) := rfl

theorem exec_ldReg (x y : Nibble) (s : State) :
    exec (.ldReg x y) s = .next ((s.setReg x (s.reg y)).advance (.ldReg x y)) := rfl

/-- Settles O34: the write of `kk` to `V[x]` and the advance, which fits. -/
theorem ldImmLoads : Obligations.LdImmLoads := by
  intro x kk s hfits
  exact ⟨decode_packXKK_ldImm x kk, _, exec_ldImm x kk s,
    State.reg_advance_setReg hfits _ x kk, State.advance_setReg_frame hfits _ x kk⟩

/-- Settles O35: the byte written is the 8-bit sum, which is the sum modulo 256; every register but `V[x]`, `VF` among
them, is kept by the one write. -/
theorem addImmWraps : Obligations.AddImmWraps := by
  intro x kk s hfits
  have readBack := State.reg_advance_setReg hfits (.addImm x kk) x (s.reg x + kk)
  refine ⟨decode_packXKK_addImm x kk, _, exec_addImm x kk s, ?sum, ?others, State.advance_setReg_frame hfits _ x _⟩
  case sum => rw [readBack, if_pos rfl, BitVec.toNat_add]
  case others =>
    intro r hr
    rw [readBack, if_neg hr]

/-- Settles O36: `V[y]` is read before the write, so `x = y` leaves every register as it was. -/
theorem ldRegCopies : Obligations.LdRegCopies := by
  intro x y s hfits
  exact ⟨decode_packXYN_ldReg x y, _, exec_ldReg x y s,
    State.reg_advance_setReg hfits _ x (s.reg y), State.advance_setReg_frame hfits _ x (s.reg y)⟩

end Sys2Proof.Machine
end

section
/-! `Annn` LD I (43_index_memory.md rule R100): its word's reading, and a write of `I` with what is already an address. -/

namespace Sys2Proof.Machine

/-- A 12-bit value is always in range, so writing it to `I` raises nothing. -/
theorem State.writeI_addr (s : State) (a : Addr) : s.writeI a.toNat = .ok { s with iReg := a } := by
  have inRange : a.toNat ≤ 0xFFF := Nat.le_of_lt_succ a.isLt
  rw [State.writeI_eq, if_pos inRange, BitVec.ofNat_toNat, BitVec.setWidth_eq]

/-- First digit A selects LD I, whatever the address digits are (30_encoding.md rule R49). -/
theorem decode_packNNN_ldI (nnn : Addr) : decode (packNNN 0xA#4 nnn) = some (.ldI nnn) := by
  simp only [decode, opN0_packNNN, opNnn_packNNN, BitVec.reduceToNat]

theorem exec_ldI (nnn : Addr) (s : State) :
    exec (.ldI nnn) s = .next (s.orRaise (.ldI nnn) (s.writeI nnn.toNat) (fun t => t.advance (.ldI nnn))) := rfl

/-- Settles O43: the write of `I` cannot fail for any `nnn`, and it keeps `pc`, so the advance still fits. -/
theorem ldILoads : Obligations.LdILoads := by
  intro nnn s hfits
  refine ⟨decode_packNNN_ldI nnn, ?_⟩
  rw [exec_ldI, State.writeI_addr, State.orRaise_ok, State.advance_ok (s := { s with iReg := nnn }) _ hfits]

end Sys2Proof.Machine
end

section
/-! `00E0` CLS (45_display.md rule R116): the framebuffer is replaced by the blank one, whose pixels are all off. -/

namespace Sys2Proof.Machine

theorem decode_cls : decode 0x00E0#16 = some .cls := by decide

theorem exec_cls (s : State) : exec .cls s = .next ({ s with fb := Framebuffer.blank }.advance .cls) := rfl

/-- The advance reads only `pc`, so it fits after the framebuffer is blanked just when it fitted before. -/
theorem State.advance_blank {s : State} (hfits : s.AdvanceFits) (i : Instr) :
    { s with fb := Framebuffer.blank }.advance i = { s with fb := Framebuffer.blank, pc := s.pc + 2#12 } :=
  State.advance_ok (s := { s with fb := Framebuffer.blank }) i hfits

/-- Settles O50: CLS writes the blank framebuffer, which is off at every coordinate. -/
theorem clsBlanksScreen : Obligations.ClsBlanksScreen := by
  intro s hfits
  refine ⟨decode_cls, { s with fb := Framebuffer.blank, pc := s.pc + 2#12 }, ?_, Framebuffer.pixel_blank, rfl⟩
  rw [exec_cls, State.advance_blank hfits]

end Sys2Proof.Machine
end

section
/-! `Fx07` LD Vx, DT (46_keys_timers.md rule R123): its word's reading, and what the whole tick of a decoded word is, the
timers being stepped before the instruction runs. -/

namespace Sys2Proof.Machine

/-- The decoder rejects the sentinel's word (30_encoding.md rule R52), so a decoded word is not the sentinel. -/
theorem ne_sentinel_of_decode {op : Opcode} {i : Instr} (hd : decode op = some i) : op ≠ 0x0000#16 := by
  rintro rfl
  have rejected : decode 0x0000#16 = none := by decide
  simp [rejected] at hd

/-- Rules R65 and R67: the instruction of a decoded word runs on the timers already stepped. -/
theorem State.runOpcode_decoded (s : State) {op : Opcode} {i : Instr} (hd : decode op = some i) :
    s.runOpcode op = exec i s.stepTimers := by
  simp only [State.runOpcode, if_neg (ne_sentinel_of_decode hd), hd]

/-- The whole tick of a running core that fetches a decoded word. -/
theorem step_running_decoded {s : State} {op : Opcode} {i : Instr} (hr : s.Running) (hop : s.Fetches op)
    (hd : decode op = some i) : step s = exec i s.sampleKeys.stepTimers := by
  rw [step_running_fetches hr hop, State.runOpcode_decoded _ hd]

/-- First digit F selects the group whose instruction the low byte names (rule R49). -/
theorem decode_packXKK_groupF (x : Nibble) (kk : Byte) :
    decode (packXKK 0xF#4 x kk) = decodeGroupF (packXKK 0xF#4 x kk) := by
  simp only [decode, opN0_packXKK, BitVec.reduceToNat]

/-- Low byte 07 of that group is LD Vx, DT. -/
theorem decode_packXKK_ldVxDt (x : Nibble) : decode (packXKK 0xF#4 x 0x07#8) = some (.ldVxDt x) := by
  rw [decode_packXKK_groupF]
  simp only [decodeGroupF, opKk_packXKK, opX_packXKK, BitVec.reduceToNat]

theorem exec_ldVxDt (x : Nibble) (s : State) :
    exec (.ldVxDt x) s = .next ((s.setReg x s.dt).advance (.ldVxDt x)) := rfl

/-- A register write and an advance that fits keep the delay timer. -/
theorem State.dt_advance_setReg {s : State} (hfits : s.AdvanceFits) (i : Instr) (x : Nibble) (b : Byte) :
    ((s.setReg x b).advance i).dt = s.dt := by
  rw [State.advance_setReg_frame hfits]

/-- Settles O54: one register write of `DT` and the advance; in the tick the timers have been stepped before, so the value
written and the timer left are the same decremented one. -/
theorem ldVxDtReadsTimer : Obligations.LdVxDtReadsTimer := by
  intro x s hfits
  refine ⟨decode_packXKK_ldVxDt x, ⟨_, exec_ldVxDt x s, ?registers, ?frame⟩, ?tick⟩
  case registers => exact State.reg_advance_setReg hfits _ x s.dt
  case frame => exact State.advance_setReg_frame hfits _ x s.dt
  case tick =>
    intro hr hop
    have hfits' : s.sampleKeys.stepTimers.AdvanceFits := hfits
    have hdt : s.sampleKeys.stepTimers.dt.toNat = s.dt.toNat - 1 := countDown_toNat s.dt
    refine ⟨_, (step_running_decoded hr hop (decode_packXKK_ldVxDt x)).trans (exec_ldVxDt x _), ?register, ?timer⟩
    case register => rw [State.reg_advance_setReg hfits', if_pos rfl, hdt]
    case timer => rw [State.dt_advance_setReg hfits', hdt]

end Sys2Proof.Machine
end

section
/-! The encoder and the decoder undo each other (30_encoding.md rules R49 to R54). -/

namespace Sys2Proof.Machine

/-- Every word of an instruction but the sentinel's is read back by the decoder: its first digit selects the group, and
in the groups 8, E and F its last digits select the instruction (rule R49). -/
theorem decode_encode {i : Instr} (hi : i ≠ .halt0) : decode (encode i) = some i := by
  cases i with
  | halt0 => exact absurd rfl hi
  | cls | ret => decide
  | jp | call | ldI | ldIV0 | seImm | sneImm | ldImm | addImm | rnd | seReg | sneReg | drw => simp [encode, decode]
  | ldReg | or | and | xor | addReg | sub | shr | subn | shl =>
    rw [encode, decode_packXYN_group8]
    simp [decodeGroup8]
  | skp | sknp => simp [encode, decode, decodeGroupE]
  | ldVxDt | ldVxK | ldDtVx | ldStVx | addIVx | ldFVx | ldBVx | stRegs | ldRegs =>
    rw [encode, decode_packXKK_groupF]
    simp [decodeGroupF]

/-- No instruction but the sentinel has the word 0x0000 (rule R52). -/
theorem encode_ne_sentinel {i : Instr} (hi : i ≠ .halt0) : encode i ≠ 0x0000#16 :=
  ne_sentinel_of_decode (decode_encode hi)

/-- The tick's reading gives back every instruction, the sentinel included. -/
theorem identify_encode (i : Instr) : identify (encode i) = some i := by
  by_cases hi : i = .halt0
  · subst hi; rfl
  · rw [identify, if_neg (encode_ne_sentinel hi), decode_encode hi]

theorem encode_injective : Function.Injective encode := by
  intro i j h
  have := identify_encode i
  rw [h, identify_encode j] at this
  exact (Option.some.inj this).symm

/-- The two bytes of an opcode are read as the tick reads the opcode. -/
theorem decodeBytes_opcodeBytes {op : Opcode} {i : Instr} (h : identify op = some i) :
    decodeBytes (opcodeBytes op) = .ok (i, []) := by
  rw [opcodeBytes, decodeBytes, joinBytes_high_low, h]

theorem decodeTableWord_toNat {op : Opcode} {i : Instr} (h : identify op = some i) :
    decodeTableWord 16 op.toNat = some i := by
  rw [decodeTableWord, Nat.mod_eq_of_lt op.isLt, BitVec.ofNat_toNat, BitVec.setWidth_eq, decodeBytes_opcodeBytes h]

/-- Settles O1: the round trip through the decoder, for the sentinel through the tick's own test. -/
theorem encodeThenDecode : Obligations.EncodeThenDecode := by
  intro i _
  have h := identify_encode i
  exact ⟨h, decodeBytes_opcodeBytes h, decodeTableWord_toNat h⟩

/-! ## From the word back to itself -/

/-- Format `NNN`: a word with this first digit. -/
theorem packNNN_of_digit {op : Opcode} {a : Nibble} (h0 : (opN0 op).toNat = a.toNat) : packNNN a (opNnn op) = op := by
  rw [← BitVec.eq_of_toNat_eq h0, packNNN_fields]

/-- Format `XKK`. -/
theorem packXKK_of_digit {op : Opcode} {a : Nibble} (h0 : (opN0 op).toNat = a.toNat) :
    packXKK a (opX op) (opKk op) = op := by
  rw [← BitVec.eq_of_toNat_eq h0, packXKK_fields]

/-- Format `X`: a word with this first digit and this low byte. -/
theorem packX_of_digits {op : Opcode} {a : Nibble} {kk : Byte} (h0 : (opN0 op).toNat = a.toNat)
    (hk : (opKk op).toNat = kk.toNat) : packXKK a (opX op) kk = op := by
  rw [← BitVec.eq_of_toNat_eq hk, packXKK_of_digit h0]

/-- Format `XYN`. -/
theorem packXYN_of_digit {op : Opcode} {a : Nibble} (h0 : (opN0 op).toNat = a.toNat) :
    packXYN a (opX op) (opY op) (opN3 op) = op := by
  rw [← BitVec.eq_of_toNat_eq h0, packXYN_fields]

/-- Format `XY`: a word with this first digit and this last digit. -/
theorem packXY_of_digits {op : Opcode} {a n : Nibble} (h0 : (opN0 op).toNat = a.toNat)
    (hn : (opN3 op).toNat = n.toNat) : packXYN a (opX op) (opY op) n = op := by
  rw [← BitVec.eq_of_toNat_eq hn, packXYN_of_digit h0]

theorem encode_of_decodeGroup8 {op : Opcode} {i : Instr} (h0 : (opN0 op).toNat = 0x8) (h : decodeGroup8 op = some i) :
    encode i = op := by
  unfold decodeGroup8 at h
  split at h <;> cases h
  all_goals
    next hn => exact packXY_of_digits h0 hn

theorem encode_of_decodeGroupE {op : Opcode} {i : Instr} (h0 : (opN0 op).toNat = 0xE) (h : decodeGroupE op = some i) :
    encode i = op := by
  unfold decodeGroupE at h
  split at h <;> cases h
  all_goals
    next hk => exact packX_of_digits h0 hk

theorem encode_of_decodeGroupF {op : Opcode} {i : Instr} (h0 : (opN0 op).toNat = 0xF) (h : decodeGroupF op = some i) :
    encode i = op := by
  unfold decodeGroupF at h
  split at h <;> cases h
  all_goals
    next hk => exact packX_of_digits h0 hk

/-- What the decoder reads has the word it was read from. -/
theorem encode_of_decode {op : Opcode} {i : Instr} (h : decode op = some i) : encode i = op := by
  unfold decode at h
  split at h
  next =>
    split at h
    next e => cases h; exact e.symm
    next =>
      split at h
      next e => cases h; exact e.symm
      next => cases h
  next h0 => cases h; exact packNNN_of_digit h0
  next h0 => cases h; exact packNNN_of_digit h0
  next h0 => cases h; exact packXKK_of_digit h0
  next h0 => cases h; exact packXKK_of_digit h0
  next h0 =>
    split at h
    next hn => cases h; exact packXY_of_digits h0 (congrArg BitVec.toNat hn)
    next => cases h
  next h0 => cases h; exact packXKK_of_digit h0
  next h0 => cases h; exact packXKK_of_digit h0
  next h0 => exact encode_of_decodeGroup8 h0 h
  next h0 =>
    split at h
    next hn => cases h; exact packXY_of_digits h0 (congrArg BitVec.toNat hn)
    next => cases h
  next h0 => cases h; exact packNNN_of_digit h0
  next h0 => cases h; exact packNNN_of_digit h0
  next h0 => cases h; exact packXKK_of_digit h0
  next h0 => cases h; exact packXYN_of_digit h0
  next h0 => exact encode_of_decodeGroupE h0 h
  next h0 => exact encode_of_decodeGroupF h0 h
  next => cases h

/-- Settles O2: the sentinel's word is 0x0000, and every other word goes through the decoder. -/
theorem decodeThenEncode : Obligations.DecodeThenEncode := by
  intro op i h
  unfold identify at h
  split at h
  next e => cases h; exact e.symm
  next => exact encode_of_decode h

/-- Settles O5: fourteen closed readings, evaluated. -/
theorem sampleWordsDecode : Obligations.SampleWordsDecode := by
  unfold Obligations.SampleWordsDecode
  decide

end Sys2Proof.Machine
end

section
/-! The opcode table (30_encoding.md rules R50 and R51): no two patterns overlap, and the decoder rejects exactly the
words that have none of them. -/

namespace Sys2Proof.Machine

/-- Two rows whose patterns agree on the bits both masks fix are one row. -/
theorem opcodeTable_agree_eq : ∀ r ∈ opcodeTable, ∀ q ∈ opcodeTable,
    r.pattern &&& q.mask = q.pattern &&& r.mask → r = q := by decide

/-- Settles O4: one opcode with both patterns makes them agree on the bits both masks fix. -/
theorem patternsDoNotOverlap : Obligations.PatternsDoNotOverlap := by
  intro op r q hr hq hrop hqop
  have hrp : op &&& r.mask = r.pattern := eq_of_beq hrop
  have hqp : op &&& q.mask = q.pattern := eq_of_beq hqop
  refine opcodeTable_agree_eq r hr q hq ?_
  calc r.pattern &&& q.mask = op &&& (r.mask &&& q.mask) := by rw [← hrp, BitVec.and_assoc]
    _ = op &&& (q.mask &&& r.mask) := by rw [BitVec.and_comm r.mask]
    _ = q.pattern &&& r.mask := by rw [← hqp, BitVec.and_assoc]

/-- Every instruction's word has its row's pattern: the family `EncodesRow`, format by format. -/
theorem encode_and_rowMask (i : Instr) : encode i &&& i.row.mask = i.row.pattern := by
  cases i with
  | cls | ret | halt0 => rfl
  | jp | call | ldI | ldIV0 => exact Laws.maskNNN _ _
  | seImm | sneImm | ldImm | addImm | rnd => exact Laws.maskXKK _ _ _
  | seReg | sneReg | ldReg | or | and | xor | addReg | sub | shr | subn | shl => exact Laws.maskXY _ _ _ _
  | drw => exact Laws.maskXYN _ _ _ _
  | skp | sknp | ldVxDt | ldVxK | ldDtVx | ldStVx | addIVx | ldFVx | ldBVx | stRegs | ldRegs => exact Laws.maskX _ _ _

theorem row_mem_opcodeTable {i : Instr} (hi : i ≠ .halt0) : i.row ∈ opcodeTable := by
  cases i with
  | halt0 => exact absurd rfl hi
  | _ => simp [opcodeTable, Instr.row]

/-! ## What a word with a row's pattern has in its fields -/

theorem opN0_and (a b : Opcode) : opN0 (a &&& b) = opN0 a &&& opN0 b := BitVec.extractLsb'_and
theorem opN3_and (a b : Opcode) : opN3 (a &&& b) = opN3 a &&& opN3 b := BitVec.extractLsb'_and
theorem opKk_and (a b : Opcode) : opKk (a &&& b) = opKk a &&& opKk b := BitVec.extractLsb'_and

/-- Every mask fixes the first digit. -/
theorem opN0_of_row {op : Opcode} {r : Row} (hr : r ∈ opcodeTable) (h : op &&& r.mask = r.pattern) :
    opN0 op = opN0 r.pattern := by
  have hmask : ∀ q ∈ opcodeTable, opN0 q.mask = BitVec.allOnes 4 := by decide
  rw [← h, opN0_and, hmask r hr, BitVec.and_allOnes]

theorem opN3_of_row {op : Opcode} {r : Row} (h : op &&& r.mask = r.pattern) (hmask : opN3 r.mask = 0xF#4) :
    opN3 op = opN3 r.pattern := by
  rw [← h, opN3_and, hmask]
  exact BitVec.and_allOnes.symm

theorem opKk_of_row {op : Opcode} {r : Row} (h : op &&& r.mask = r.pattern) (hmask : opKk r.mask = 0xFF#8) :
    opKk op = opKk r.pattern := by
  rw [← h, opKk_and, hmask]
  exact BitVec.and_allOnes.symm

/-! ## The rows of each first digit under which some words are invalid -/

theorem rows_zero : ∀ r ∈ opcodeTable, (opN0 r.pattern).toNat = 0x0 →
    r.mask = 0xFFFF#16 ∧ (r.pattern = 0x00E0#16 ∨ r.pattern = 0x00EE#16) := by decide

theorem rows_five_nine : ∀ r ∈ opcodeTable, (opN0 r.pattern).toNat = 0x5 ∨ (opN0 r.pattern).toNat = 0x9 →
    opN3 r.mask = 0xF#4 ∧ opN3 r.pattern = 0x0#4 := by decide

theorem rows_group8 : ∀ r ∈ opcodeTable, (opN0 r.pattern).toNat = 0x8 →
    opN3 r.mask = 0xF#4 ∧ (opN3 r.pattern).toNat ∈ [0x0, 0x1, 0x2, 0x3, 0x4, 0x5, 0x6, 0x7, 0xE] := by decide

theorem rows_groupE : ∀ r ∈ opcodeTable, (opN0 r.pattern).toNat = 0xE →
    opKk r.mask = 0xFF#8 ∧ (opKk r.pattern).toNat ∈ [0x9E, 0xA1] := by decide

theorem rows_groupF : ∀ r ∈ opcodeTable, (opN0 r.pattern).toNat = 0xF →
    opKk r.mask = 0xFF#8 ∧
      (opKk r.pattern).toNat ∈ [0x07, 0x0A, 0x15, 0x18, 0x1E, 0x29, 0x33, 0x55, 0x65] := by decide

/-! ## What the groups reject -/

theorem decodeGroup8_none {op : Opcode} (h : decodeGroup8 op = none) :
    (opN3 op).toNat ∉ [0x0, 0x1, 0x2, 0x3, 0x4, 0x5, 0x6, 0x7, 0xE] := by
  intro hm
  simp only [List.mem_cons, List.not_mem_nil, or_false] at hm
  rcases hm with e | e | e | e | e | e | e | e | e <;> simp [decodeGroup8, e] at h

theorem decodeGroupE_none {op : Opcode} (h : decodeGroupE op = none) : (opKk op).toNat ∉ [0x9E, 0xA1] := by
  intro hm
  simp only [List.mem_cons, List.not_mem_nil, or_false] at hm
  rcases hm with e | e <;> simp [decodeGroupE, e] at h

theorem decodeGroupF_none {op : Opcode} (h : decodeGroupF op = none) :
    (opKk op).toNat ∉ [0x07, 0x0A, 0x15, 0x18, 0x1E, 0x29, 0x33, 0x55, 0x65] := by
  intro hm
  simp only [List.mem_cons, List.not_mem_nil, or_false] at hm
  rcases hm with e | e | e | e | e | e | e | e | e <;> simp [decodeGroupF, e] at h

/-- A word with a row's pattern decodes: its first digit leaves only rows that fix more digits, to values the decoder
reads. -/
theorem decode_ne_none_of_row {op : Opcode} {r : Row} (hr : r ∈ opcodeTable) (h : op &&& r.mask = r.pattern) :
    decode op ≠ none := by
  intro hd
  have h0 := congrArg BitVec.toNat (opN0_of_row hr h)
  unfold decode at hd
  split at hd
  case h_1 e =>
    obtain ⟨hmask, hpat⟩ := rows_zero r hr (h0.symm.trans e)
    have hop : op = r.pattern := by rw [← h, hmask]; exact BitVec.and_allOnes.symm
    rcases hpat with hp | hp <;> simp [hop, hp] at hd
  case h_6 e | h_10 e =>
    obtain ⟨hmask, hpat⟩ := rows_five_nine r hr (by omega)
    simp [opN3_of_row h hmask, hpat] at hd
  case h_9 e =>
    obtain ⟨hmask, hpat⟩ := rows_group8 r hr (h0.symm.trans e)
    exact decodeGroup8_none hd (opN3_of_row h hmask ▸ hpat)
  case h_15 e =>
    obtain ⟨hmask, hpat⟩ := rows_groupE r hr (h0.symm.trans e)
    exact decodeGroupE_none hd (opKk_of_row h hmask ▸ hpat)
  case h_16 e =>
    obtain ⟨hmask, hpat⟩ := rows_groupF r hr (h0.symm.trans e)
    exact decodeGroupF_none hd (opKk_of_row h hmask ▸ hpat)
  -- The sixteen digits are all there are.
  case h_17 =>
    have hlt : (opN0 op).toNat < 16 := (opN0 op).isLt
    grind
  all_goals cases hd

/-- Settles O3: what decodes is an instruction's word, which has the row's pattern; what has a row's pattern decodes. -/
theorem invalidIffNoPattern : Obligations.InvalidIffNoPattern := by
  intro op
  constructor
  case mp =>
    intro hd r hr h
    exact decode_ne_none_of_row hr h hd
  case mpr =>
    intro hrows
    by_contra hd
    obtain ⟨i, hi⟩ := Option.ne_none_iff_exists'.mp hd
    have hword : encode i = op := encode_of_decode hi
    have hne : i ≠ .halt0 := by
      rintro rfl
      exact ne_sentinel_of_decode hi hword.symm
    exact hrows i.row (row_mem_opcodeTable hne) (hword ▸ encode_and_rowMask i)

end Sys2Proof.Machine
end

section
/-! What executing an instruction answers, said once for every instruction: the error of the table (60_exceptions.md
rule R131), or the state the instruction leaves where the table names none. The statements about errors, frames and
single instructions are read off these. -/

namespace Sys2Proof.Machine

/-! ## The state an instruction leaves when it raises nothing -/

/-- The sprite's bytes, from `I` up. -/
def State.spriteRows (s : State) (n : Nibble) : List Byte :=
  (List.range n.toNat).map (fun j => Mem.read s.mem (s.base + j))

/-- The registers after `Fx65`: `V0..Vx` from `I` up. Irreducible: nothing looks at the vector but through its reads. -/
@[irreducible] def State.loadedRegs (s : State) (x : Nibble) : Vector Byte 16 :=
  Vector.ofFn (fun j => if j.val ≤ x.toNat then Mem.read s.mem (s.base + j.val) else s.v[j])

/-- What an instruction does to every element but `pc`. -/
def effectOf (i : Instr) (s : State) : State :=
  match i with
  | .cls => { s with fb := Framebuffer.blank }
  | .ret => { s with sp := ⟨s.sp.val - 1, Nat.lt_of_le_of_lt (Nat.sub_le _ _) s.sp.isLt⟩ }
  | .call _ => { s with stack := s.stack.setIfInBounds s.sp.val (s.pc + 2#12), sp := Fin.ofNat 17 (s.sp.val + 1) }
  | .ldImm x kk => s.setReg x kk
  | .addImm x kk => s.setReg x (s.reg x + kk)
  | .ldReg x y => s.setReg x (s.reg y)
  | .or x y => s.setReg x (s.reg x ||| s.reg y)
  | .and x y => s.setReg x (s.reg x &&& s.reg y)
  | .xor x y => s.setReg x (s.reg x ^^^ s.reg y)
  | .addReg x y => s.setResultFlag x (s.reg x + s.reg y) (carryOf (s.reg x) (s.reg y))
  | .sub x y => s.setResultFlag x (s.reg x - s.reg y) (notBorrow (s.reg x) (s.reg y))
  | .shr x y => s.setResultFlag x (s.reg y >>> 1) (lsbOf (s.reg y))
  | .subn x y => s.setResultFlag x (s.reg y - s.reg x) (notBorrow (s.reg y) (s.reg x))
  | .shl x y => s.setResultFlag x (s.reg y <<< 1) (msbOf (s.reg y))
  | .ldI nnn => { s with iReg := nnn }
  | .ldIV0 nnn => { s with iReg := BitVec.ofNat 12 (nnn.toNat + (s.reg 0x0#4).toNat) }
  | .rnd x kk => s.drawRandom.setReg x (s.randomByte &&& kk)
  | .drw x y n => s.drawSprite x y (s.spriteRows n)
  | .ldVxDt x => s.setReg x s.dt
  | .ldVxK x => { s with waitForKey := some x }
  | .ldDtVx x => { s with dt := s.reg x }
  | .ldStVx x => { s with st := s.reg x }
  | .addIVx x => { s with iReg := BitVec.ofNat 12 (s.base + (s.reg x).toNat) }
  | .ldFVx x => { s with iReg := BitVec.ofNat 12 (glyphAddress (s.reg x)) }
  | .ldBVx x => { s with mem := Mem.writeList s.mem s.base (bcdDigits (s.reg x)) }
  | .stRegs x =>
    { s with
      mem := Mem.writeList s.mem s.base ((regsUpTo x).map s.reg)
      iReg := BitVec.ofNat 12 (s.base + x.toNat + 1) }
  | .ldRegs x => { s with v := s.loadedRegs x, iReg := BitVec.ofNat 12 (s.base + x.toNat + 1) }
  | .jp _ | .seImm _ _ | .sneImm _ _ | .seReg _ _ | .sneReg _ _ | .skp _ | .sknp _ | .halt0 => s

/-- The target of a skip. -/
def State.skipTarget (s : State) (taken : Bool) : Addr := if taken then s.pc + 4#12 else s.pc + 2#12

/-- Where an instruction leaves `pc`. -/
def nextPcOf (i : Instr) (s : State) : Addr :=
  match i with
  | .halt0 => s.pc
  | .jp nnn | .call nnn => nnn
  | .ret => s.stack[s.sp.val - 1]?.getD 0x000#12
  | .seImm x kk => s.skipTarget (s.reg x == kk)
  | .sneImm x kk => s.skipTarget (s.reg x != kk)
  | .seReg x y => s.skipTarget (s.reg x == s.reg y)
  | .sneReg x y => s.skipTarget (s.reg x != s.reg y)
  | .skp x => s.skipTarget (s.keyDown (s.reg x).toNat)
  | .sknp x => s.skipTarget (!s.keyDown (s.reg x).toNat)
  | _ => s.pc + 2#12

/-- The state an instruction leaves when it raises nothing. -/
def okState (i : Instr) (s : State) : State := { effectOf i s with pc := nextPcOf i s }

/-- Raise the error, if there is one; else answer `t`. -/
def State.raiseOr (s : State) (i : Instr) (e : Option ErrorKind) (t : State) : State :=
  match e with
  | none => t
  | some k => s.raise k (encode i)

/-- What executing an instruction answers, read off the table of errors. -/
def answerOf (i : Instr) (s : State) : State := s.raiseOr i (errorOf i s) (okState i s)

theorem State.raiseOr_none (s : State) (i : Instr) (t : State) : s.raiseOr i none t = t := rfl

theorem State.raiseOr_some (s : State) (i : Instr) (k : ErrorKind) (t : State) :
    s.raiseOr i (some k) t = s.raise k (encode i) := rfl

/-! ## The ends of a tick, by the table's error -/

/-- Where the value is in range the table names no error. -/
theorem rangeError_fits {n : Nat} (h : n ≤ 0xFFF) : rangeError n = none := if_neg (Nat.not_lt.mpr h)

theorem rangeError_above {n : Nat} (h : 0xFFF < n) : rangeError n = some (.addressOutOfRange n) := if_pos h

theorem rangeError_eq_none {n : Nat} : rangeError n = none ↔ n ≤ 0xFFF := by
  by_cases h : n ≤ 0xFFF
  · simp [rangeError_fits h, h]
  · simp [rangeError_above (Nat.lt_of_not_le h), h]

theorem State.writePc_eq_raiseOr (s : State) (i : Instr) (next : Nat) :
    s.writePc i next = s.raiseOr i (rangeError next) { s with pc := BitVec.ofNat 12 next } := by
  by_cases h : next ≤ 0xFFF
  · rw [State.writePc_ok s i h, rangeError_fits h]; rfl
  · rw [State.writePc_range s i (Nat.lt_of_not_le h), rangeError_above (Nat.lt_of_not_le h)]; rfl

theorem State.advance_eq_raiseOr (s : State) (i : Instr) :
    s.advance i = s.raiseOr i (rangeError (s.pc.toNat + 2)) { s with pc := s.pc + 2#12 } := by
  rw [State.advance, State.writePc_eq_raiseOr, ofNat_add_toNat]

theorem State.skipIf_eq_raiseOr (s : State) (i : Instr) (taken : Bool) :
    s.skipIf i taken = s.raiseOr i (s.skipError taken) { s with pc := s.skipTarget taken } := by
  rw [State.skipIf, State.writePc_eq_raiseOr, State.skipError, State.skipTarget]
  cases taken with
  | false => simp only [Bool.false_eq_true, if_false, ofNat_add_toNat]
  | true => simp only [if_true, ofNat_add_toNat]

/-- A write of `I` with any sum, then the advance. -/
theorem State.writeI_advance_eq_raiseOr (s : State) (i : Instr) (n : Nat) :
    s.orRaise i (s.writeI n) (fun t => t.advance i) =
      s.raiseOr i ((rangeError n).or (rangeError (s.pc.toNat + 2)))
        { s with iReg := BitVec.ofNat 12 n, pc := s.pc + 2#12 } := by
  rw [State.writeI_eq]
  by_cases h : n ≤ 0xFFF
  · rw [if_pos h, rangeError_fits h, State.orRaise_ok, State.advance_eq_raiseOr]; rfl
  · rw [if_neg h, rangeError_above (Nat.lt_of_not_le h)]; rfl

/-- A key skip: the register's whole value is checked before `pc` is written. -/
theorem State.keySkip_eq_raiseOr (s : State) (i : Instr) (x : Nibble) (taken : Nat → Bool) :
    s.orRaise i (s.keyIndex x) (fun k => s.skipIf i (taken k)) =
      s.raiseOr i (s.keyError x (s.skipError (taken (s.reg x).toNat)))
        { s with pc := s.skipTarget (taken (s.reg x).toNat) } := by
  rw [State.keyIndex, State.keyError]
  by_cases h : (s.reg x).toNat > 15
  · rw [if_pos h, if_pos h]; rfl
  · rw [if_neg h, if_neg h, State.orRaise_ok, State.skipIf_eq_raiseOr]

/-- Where all of memory up to `last` is there, only the advance can fail. -/
theorem State.reachError_fits {s : State} {last : Nat} (h : last ≤ 0xFFF) :
    s.reachError last = rangeError (s.pc.toNat + 2) := if_neg (Nat.not_lt.mpr h)

theorem State.reachError_above {s : State} {last : Nat} (h : 0xFFF < last) :
    s.reachError last = some (.addressOutOfRange 0x1000) := if_pos h

theorem State.base_le (s : State) : s.base ≤ 0xFFF := Nat.le_of_lt_succ s.iReg.isLt

theorem glyphAddress_le (b : Byte) : glyphAddress b ≤ 0xFFF := by
  have := b.isLt
  simp only [glyphAddress, fontBase, glyphBytes]
  omega

/-! ## The instructions whose meaning is more than one operation and an advance -/

theorem errorOf_ret {s : State} (h : 0 < s.sp.val) : errorOf .ret s = none := if_neg (Nat.ne_of_gt h)

theorem errorOf_ret_empty {s : State} (h : s.sp.val = 0) : errorOf .ret s = some .stackUnderflow := if_pos h

theorem errorOf_call {s : State} (nnn : Addr) (hsp : s.sp.val < 16) :
    errorOf (.call nnn) s = rangeError (s.pc.toNat + 2) := if_neg (Nat.ne_of_lt hsp)

theorem errorOf_call_full {s : State} (nnn : Addr) (h : s.sp.val = 16) :
    errorOf (.call nnn) s = some .stackOverflow := if_pos h

theorem execRet_eq (s : State) : execRet s = .next (answerOf .ret s) := by
  by_cases hempty : s.sp.val = 0
  · rw [execRet, State.pop_empty hempty, answerOf, errorOf_ret_empty hempty]
    rfl
  · have hpos : 0 < s.sp.val := Nat.pos_of_ne_zero hempty
    have hin : s.sp.val - 1 < 16 := by omega
    rw [execRet, State.pop_ok hpos, answerOf, errorOf_ret hpos, State.raiseOr_none]
    simp [State.writePc_addr, okState, effectOf, nextPcOf, hin]

theorem execCall_eq (nnn : Addr) (s : State) : execCall nnn s = .next (answerOf (.call nnn) s) := by
  rw [execCall, answerOf]
  by_cases hfull : s.sp.val = 16
  · rw [State.push_full hfull, errorOf_call_full nnn hfull]
    rfl
  have hsp : s.sp.val < 16 := by omega
  rw [errorOf_call nnn hsp]
  by_cases hpc : s.pc.toNat + 2 ≤ 0xFFF
  · have hsp' : Fin.ofNat 17 (s.sp.val + 1) = ⟨s.sp.val + 1, Nat.succ_lt_succ hsp⟩ :=
      Fin.ext (Nat.mod_eq_of_lt (Nat.succ_lt_succ hsp))
    have hstack : s.stack.setIfInBounds s.sp.val (s.pc + 2#12) = s.stack.set s.sp.val (s.pc + 2#12) hsp := by
      apply Vector.ext
      intro j hj
      rw [Vector.getElem_setIfInBounds hj, Vector.getElem_set]
    rw [State.push_ok hsp hpc, State.orRaise_ok, State.writePc_addr, rangeError_fits hpc, ofNat_add_toNat,
      State.raiseOr_none, okState, effectOf, nextPcOf, hsp', hstack]
  · have habove := Nat.lt_of_not_le hpc
    rw [State.push_range hsp habove, rangeError_above habove]
    rfl

theorem execLdI_eq (nnn : Addr) (s : State) : execLdI nnn s = .next (answerOf (.ldI nnn) s) := by
  rw [execLdI, State.writeI_addr, State.orRaise_ok, State.advance_eq_raiseOr]
  rfl

theorem execLdFVx_eq (x : Nibble) (s : State) : execLdFVx x s = .next (answerOf (.ldFVx x) s) := by
  rw [execLdFVx, State.writeI_advance_eq_raiseOr, rangeError_fits (glyphAddress_le _)]
  rfl

theorem execLdBVx_eq (x : Nibble) (s : State) : execLdBVx x s = .next (answerOf (.ldBVx x) s) := by
  have hlen : (bcdDigits (s.reg x)).length = 3 := rfl
  rw [execLdBVx, State.writeBytes_eq s s.base_le, hlen, answerOf, errorOf]
  by_cases h : s.base + 2 ≤ 0xFFF
  · rw [if_pos (by omega), State.orRaise_ok, State.advance_eq_raiseOr, State.reachError_fits h]
    rfl
  · rw [if_neg (by omega), State.reachError_above (Nat.lt_of_not_le h)]
    rfl

theorem execStRegs_eq (x : Nibble) (s : State) : execStRegs x s = .next (answerOf (.stRegs x) s) := by
  rw [execStRegs, State.storeRegs_upTo s s.base_le, answerOf, errorOf]
  by_cases hall : s.base + x.toNat + 1 ≤ 0xFFF
  · rw [if_pos (by omega), State.orRaise_ok, State.writeI_advance_eq_raiseOr, rangeError_fits hall,
      State.reachError_fits hall]
    rfl
  rw [State.reachError_above (Nat.lt_of_not_le hall)]
  by_cases hlast : s.base + (x.toNat + 1) ≤ 4096
  · have htop : s.base + x.toNat + 1 = 0x1000 := by omega
    rw [if_pos hlast, State.orRaise_ok, State.writeI_advance_eq_raiseOr, htop, rangeError_above (by decide),
      Option.some_or, State.raiseOr_some, State.raiseOr_some]
    rfl
  · rw [if_neg hlast]
    rfl

/-- A register read after `Fx65`'s loads. -/
theorem State.reg_loadedRegs (s : State) (x q : Nibble) : ({ s with v := s.loadedRegs x } : State).reg q =
    if q.toNat ≤ x.toNat then Mem.read s.mem (s.base + q.toNat) else s.reg q := by
  simp [State.reg, State.loadedRegs]

/-- Registers that read alike are the same vector. -/
theorem v_eq_of_reg_eq {s t : State} (h : ∀ q, s.reg q = t.reg q) : s.v = t.v := by
  apply Vector.ext
  intro j hj
  have hq : (BitVec.ofNat 4 j).toNat = j := Nat.mod_eq_of_lt hj
  have hj' := h (BitVec.ofNat 4 j)
  simpa only [State.reg, hq] using hj'

theorem execLdRegs_eq (x : Nibble) (s : State) : execLdRegs x s = .next (answerOf (.ldRegs x) s) := by
  have hload := State.loadRegs_upTo s s.base_le x
  rw [execLdRegs, answerOf, errorOf]
  by_cases hlast : s.base + x.toNat + 1 ≤ 4096
  · rw [if_pos hlast] at hload
    obtain ⟨v, hv, hregs⟩ := hload
    have hv' : v = s.loadedRegs x :=
      v_eq_of_reg_eq (s := { s with v := v }) (fun q => (hregs q).trans (State.reg_loadedRegs s x q).symm)
    rw [hv, hv', State.orRaise_ok, State.writeI_advance_eq_raiseOr]
    by_cases hall : s.base + x.toNat + 1 ≤ 0xFFF
    · rw [rangeError_fits hall, State.reachError_fits hall]
      rfl
    · have htop : s.base + x.toNat + 1 = 0x1000 := by omega
      rw [State.reachError_above (Nat.lt_of_not_le hall), htop, rangeError_above (by decide), Option.some_or,
        State.raiseOr_some, State.raiseOr_some]
      rfl
  · rw [if_neg hlast] at hload
    rw [hload, State.reachError_above (by omega)]
    rfl

theorem execDrw_eq (x y n : Nibble) (s : State) : execDrw x y n s = .next (answerOf (.drw x y n) s) := by
  rw [execDrw, State.readBytes_eq s s.base_le, answerOf, errorOf]
  have hbase := s.base_le
  by_cases h : s.base + n.toNat ≤ 4096
  · rw [if_pos h, State.orRaise_ok, State.advance_eq_raiseOr, State.reachError_fits (by split <;> omega)]
    rfl
  · rw [if_neg h, if_pos (by omega), State.reachError_above (by omega)]
    rfl

/-! ## Every instruction -/

/-- Rules R131 and R133: executing an instruction raises the table's error, or leaves `okState`. -/
theorem exec_eq (i : Instr) (s : State) : exec i s = .next (answerOf i s) := by
  cases i with
  | cls | ldImm | addImm | ldReg | or | and | xor | addReg | sub | shr | subn | shl | rnd | ldVxDt | ldVxK | ldDtVx
  | ldStVx => exact congrArg Host.Outcome.next (State.advance_eq_raiseOr _ _)
  | seImm | sneImm | seReg | sneReg => exact congrArg Host.Outcome.next (State.skipIf_eq_raiseOr s _ _)
  | skp x => exact congrArg Host.Outcome.next (State.keySkip_eq_raiseOr s _ x s.keyDown)
  | sknp x => exact congrArg Host.Outcome.next (State.keySkip_eq_raiseOr s _ x (fun k => !s.keyDown k))
  | ldIV0 | addIVx => exact congrArg Host.Outcome.next (State.writeI_advance_eq_raiseOr s _ _)
  | jp nnn => exact congrArg Host.Outcome.next (State.writePc_addr s _ nnn)
  | halt0 => rfl
  | ret => exact execRet_eq s
  | call nnn => exact execCall_eq nnn s
  | ldI nnn => exact execLdI_eq nnn s
  | ldFVx x => exact execLdFVx_eq x s
  | ldBVx x => exact execLdBVx_eq x s
  | stRegs x => exact execStRegs_eq x s
  | ldRegs x => exact execLdRegs_eq x s
  | drw x y n => exact execDrw_eq x y n s

theorem exec_ok {i : Instr} {s : State} (h : errorOf i s = none) : exec i s = .next (okState i s) := by
  rw [exec_eq, answerOf, h, State.raiseOr_none]

theorem exec_error {i : Instr} {s : State} {k : ErrorKind} (h : errorOf i s = some k) :
    exec i s = .next (s.raise k (encode i)) := by
  rw [exec_eq, answerOf, h, State.raiseOr_some]

end Sys2Proof.Machine
end

section
/-! Errors and frames (60_exceptions.md rules R130 to R133, 10_state.md section 1, 20_memory.md rule R36): what every
instruction raises, and what it leaves as it was. -/

namespace Sys2Proof.Machine

/-! ## Errors -/

theorem okState_fault (i : Instr) (s : State) : (okState i s).fault = s.fault := by cases i <;> rfl

/-- Settles O22: the two answers of `exec_eq`. -/
theorem errorsAreTheTable : Obligations.ErrorsAreTheTable := by
  intro i s hok
  cases he : errorOf i s with
  | none => exact ⟨okState i s, exec_ok he, (okState_fault i s).trans hok⟩
  | some k => exact ⟨s.raise k (encode i), exec_error he, rfl⟩

/-- The table's error is in the latch and in the result, whatever was latched before. -/
theorem exec_raised {i : Instr} {s : State} {k : ErrorKind} (he : errorOf i s = some k) :
    ∃ t, exec i s = .next t ∧ t.Raised k s.pc (encode i) :=
  ⟨s.raise k (encode i), exec_error he, State.raise_raised s k (encode i)⟩

theorem State.keyError_above {s : State} {x : Nibble} (h : 15 < (s.reg x).toNat) (e : Option ErrorKind) :
    s.keyError x e = some .invalidKey := if_pos h

theorem State.keyError_digit {s : State} {x : Nibble} (h : (s.reg x).toNat ≤ 15) (e : Option ErrorKind) :
    s.keyError x e = e := if_neg (Nat.not_lt.mpr h)

/-- Settles O23: the table tests the register before the write of `pc`. -/
theorem keyAboveFifteenRaises : Obligations.KeyAboveFifteenRaises := by
  intro s x h
  exact ⟨exec_raised (i := .skp x) (State.keyError_above h _), exec_raised (i := .sknp x) (State.keyError_above h _)⟩

/-- An answer without an error is `okState`, and the table names no error. -/
theorem exec_inv {i : Instr} {s t : State} (h : exec i s = .next t) (ht : t.fault = none) :
    errorOf i s = none ∧ t = okState i s := by
  cases he : errorOf i s with
  | none =>
    rw [exec_ok he] at h
    exact ⟨rfl, (Host.Outcome.next.inj h).symm⟩
  | some k =>
    rw [exec_error he] at h
    rw [← Host.Outcome.next.inj h] at ht
    exact absurd ht (State.raise_not_ok s k (encode i))

/-- `exec` has no other outcome than a next state. -/
theorem exec_next (i : Instr) (s : State) : ∃ t, exec i s = .next t := ⟨_, exec_eq i s⟩

/-! ## What `okState` leaves, element by element -/

/-- `V`: rules R10 and R11. -/
theorem okState_reg {i : Instr} {s : State} {r : Nibble} (h : writesReg i r = false) :
    (okState i s).reg r = s.reg r := by
  cases i with
  | ldImm x | addImm x | ldReg x | or x | and x | xor x | rnd x | ldVxDt x =>
    have hne : ¬ x = r := fun e => absurd h (by simp [writesReg, e])
    exact (State.reg_setReg _ _ _ r).trans (if_neg hne)
  | addReg x y | sub x y | shr x y | subn x y | shl x y =>
    simp only [writesReg, Bool.or_eq_false_iff, beq_eq_false_iff_ne] at h
    obtain ⟨hx, hf⟩ := h
    exact (State.reg_setResultFlag s _ _ _ r).trans (by rw [if_neg hf, if_neg hx.symm])
  | drw x y n =>
    have hf : r ≠ 0xF#4 := beq_eq_false_iff_ne.mp h
    exact (State.reg_setFlag _ _ r).trans (if_neg hf)
  | ldRegs x =>
    have hr : ¬ r.toNat ≤ x.toNat := of_decide_eq_false h
    exact (State.reg_loadedRegs s x r).trans (if_neg hr)
  | _ => rfl

theorem okState_iReg {i : Instr} {s : State} (h : writesI i = false) : (okState i s).iReg = s.iReg := by
  cases i with
  | ldI | ldIV0 | addIVx | ldFVx | stRegs | ldRegs => exact absurd h (by simp [writesI])
  | _ => rfl

theorem okState_stack {i : Instr} {s : State} (h : ∀ nnn, i ≠ .call nnn) : (okState i s).stack = s.stack := by
  cases i with
  | call nnn => exact absurd rfl (h nnn)
  | _ => rfl

theorem okState_sp {i : Instr} {s : State} (hcall : ∀ nnn, i ≠ .call nnn) (hret : i ≠ .ret) :
    (okState i s).sp = s.sp := by
  cases i with
  | call nnn => exact absurd rfl (hcall nnn)
  | ret => exact absurd rfl hret
  | _ => rfl

theorem okState_dt {i : Instr} {s : State} (h : ∀ x, i ≠ .ldDtVx x) : (okState i s).dt = s.dt := by
  cases i with
  | ldDtVx x => exact absurd rfl (h x)
  | _ => rfl

theorem okState_st {i : Instr} {s : State} (h : ∀ x, i ≠ .ldStVx x) : (okState i s).st = s.st := by
  cases i with
  | ldStVx x => exact absurd rfl (h x)
  | _ => rfl

theorem okState_waitForKey {i : Instr} {s : State} (h : ∀ x, i ≠ .ldVxK x) :
    (okState i s).waitForKey = s.waitForKey := by
  cases i with
  | ldVxK x => exact absurd rfl (h x)
  | _ => rfl

theorem okState_rng {i : Instr} {s : State} (h : ∀ x kk, i ≠ .rnd x kk) : (okState i s).rng = s.rng := by
  cases i with
  | rnd x kk => exact absurd rfl (h x kk)
  | _ => rfl

theorem okState_fb {i : Instr} {s : State} (hcls : i ≠ .cls) (hdrw : ∀ x y n, i ≠ .drw x y n) :
    (okState i s).fb = s.fb := by
  cases i with
  | cls => exact absurd rfl hcls
  | drw x y n => exact absurd rfl (hdrw x y n)
  | _ => rfl

theorem okState_port (i : Instr) (s : State) :
    (okState i s).keys = s.keys ∧ (okState i s).keyFeed = s.keyFeed ∧ (okState i s).ticks = s.ticks := by
  cases i <;> exact ⟨rfl, rfl, rfl⟩

/-! ## The stores -/

theorem State.reachError_eq_none {s : State} {last : Nat} :
    s.reachError last = none ↔ last ≤ 0xFFF ∧ s.AdvanceFits := by
  by_cases h : last ≤ 0xFFF
  · rw [State.reachError_fits h, rangeError_eq_none]
    exact (and_iff_right h).symm
  · simp [State.reachError_above (Nat.lt_of_not_le h), h]

theorem storedRegs_length (s : State) (x : Nibble) : ((regsUpTo x).map s.reg).length = x.toNat + 1 := by
  simp [regsUpTo]

/-- Rule R36: memory outside the bytes stored. -/
theorem okState_read {i : Instr} {s : State} {a : Nat} (hwf : Mem.wf s.mem = true) (he : errorOf i s = none)
    (h : storesAt i s a = false) : Mem.read (okState i s).mem a = Mem.read s.mem a := by
  cases i with
  | ldBVx x =>
    obtain ⟨hfit, -⟩ := State.reachError_eq_none.mp he
    have hlen : (bcdDigits (s.reg x)).length = 3 := rfl
    have hout : ¬ (s.base ≤ a ∧ a < s.base + 3) := of_decide_eq_false h
    exact (Mem.read_writeList hwf _ (by omega) a).trans (dif_neg (by rwa [hlen]))
  | stRegs x =>
    obtain ⟨hfit, -⟩ := State.reachError_eq_none.mp he
    have hlen := storedRegs_length s x
    have hout : ¬ (s.base ≤ a ∧ a ≤ s.base + x.toNat) := of_decide_eq_false h
    exact (Mem.read_writeList hwf _ (by omega) a).trans (dif_neg (by omega))
  | _ => rfl

/-! ## The frames -/

/-- Settles O25: the state answered is `okState`, whose registers are framed. -/
theorem otherRegistersUnchanged : Obligations.OtherRegistersUnchanged := by
  intro i s t r h ht hr
  obtain ⟨-, rfl⟩ := exec_inv h ht
  exact okState_reg hr

/-- Settles O26: one frame lemma per element. -/
theorem otherElementsUnchanged : Obligations.OtherElementsUnchanged := by
  intro i s t h ht
  obtain ⟨-, rfl⟩ := exec_inv h ht
  exact ⟨okState_iReg, okState_stack, okState_sp, okState_dt, okState_st, okState_waitForKey, okState_rng, okState_fb,
    (okState_fault i s).symm.trans ht, okState_port i s⟩

/-- Settles O27: the state answered is `okState`, whose stores are in range. -/
theorem otherMemoryUnchanged : Obligations.OtherMemoryUnchanged := by
  intro i s t a hwf h ht ha
  obtain ⟨he, rfl⟩ := exec_inv h ht
  exact okState_read hwf he ha

/-- Settles O20: memory's laws, where the address exists. -/
theorem readAfterWrite : Obligations.ReadAfterWrite := by
  intro m a b d hwf ha
  refine ⟨?same, ?other, Mem.wf_write hwf ha d⟩
  case same => rw [Mem.read_write hwf, if_pos rfl]
  case other =>
    intro hne
    rw [Mem.read_write hwf, if_neg hne.symm]

end Sys2Proof.Machine
end

section
/-! The tick (40_tick_cycle.md rules R60 to R71): what `step` can answer, said once, and what follows for every tick. -/

namespace Sys2Proof.Machine

/-! ## Phases 0 and 1: the fault latch and the key-wait -/

/-- Rule R61: under a latched error only the input port moves. -/
theorem step_faulted {s : State} {e : ErrorRecord} (h : s.fault = some e) : step s = .next s.sampleKeys :=
  tick_faulted h

theorem tick_of_keyWait {s t : State} (hf : s.fault = none) (hw : s.keyWait = some t) : tick s = t.runPhases := by
  simp only [tick, hf, hw]

/-- Rule R62: the wait goes on while no key is down. -/
theorem step_waiting {s : State} {r : Nibble} (hw : s.WaitingOn r) (hk : s.nextKeys = 0x0000#16) :
    step s = .next s.sampleKeys := by
  obtain ⟨hfault, hwait⟩ := hw
  have hkeyWait : s.sampleKeys.keyWait = none := by
    simp only [State.keyWait, State.sampleKeys_waitForKey, hwait, State.sampleKeys_keys, lowestKey_none.mpr hk]
  simp only [step, tick, State.sampleKeys_fault, hfault, hkeyWait]

/-- The core running with these registers, all else as it is. -/
def State.awake (s : State) (v : Vector Byte 16) : State := { s with v := v, waitForKey := none }

/-- Rule R62: the lowest key that is down goes into the waiting register and ends the wait. -/
theorem step_wakes {s : State} {r k : Nibble} (hw : s.WaitingOn r) (hk : lowestKey s.nextKeys = some k) :
    step s = step (s.awake (s.setReg r (k.setWidth 8)).v) := by
  obtain ⟨hfault, hwait⟩ := hw
  have hkeyWait : s.sampleKeys.keyWait = some (s.awake (s.setReg r (k.setWidth 8)).v).sampleKeys := by
    simp only [State.keyWait, State.sampleKeys_waitForKey, hwait, State.sampleKeys_keys, hk]
    rfl
  rw [step, tick_of_keyWait (s := s.sampleKeys) hfault hkeyWait]
  exact (tick_running (s := (s.awake _).sampleKeys) hfault rfl).symm

/-- Settles O8: phase 0 answers the sampled state, and the result is read from the latch it keeps. -/
theorem latchedErrorStays : Obligations.LatchedErrorStays := by
  intro s e h
  exact ⟨s.sampleKeys, step_faulted h, rfl, State.result_faulted (s := s.sampleKeys) h⟩

/-- Settles O9: phase 1 answers the sampled state, with no error latched. -/
theorem waitingWithoutKeyIsIdentity : Obligations.WaitingWithoutKeyIsIdentity := by
  intro s r hw hk
  exact ⟨s.sampleKeys, step_waiting hw hk, rfl, (State.result_ok_iff s.sampleKeys).mpr hw.1⟩

/-- Settles O10: the key is the one the scan finds, which it does unless no key is down. -/
theorem waitEndsWithLowestKey : Obligations.WaitEndsWithLowestKey := by
  intro s r hw hk
  obtain ⟨k, hlow⟩ := Option.ne_none_iff_exists'.mp (mt lowestKey_none.mp hk)
  obtain ⟨hdown, hleast⟩ := lowestKey_some hlow
  exact ⟨k, hdown, hleast, step_wakes hw hlow⟩

/-! ## Phases 2 to 5 of a running core -/

/-- Rule R63: the fetch at 0xFFF fails at the missing byte. -/
theorem step_running_top {s : State} (hr : s.Running) (hpc : s.pc = 0xFFF#12) :
    step s = .next (s.sampleKeys.raise (.addressOutOfRange 0x1000) 0x0000#16) := by
  obtain ⟨hfault, hwait⟩ := hr
  have hfetch : s.sampleKeys.fetch = .error (.addressOutOfRange 0x1000) := by
    simp [State.fetch_eq, hpc]
  calc step s = s.sampleKeys.runPhases := tick_running hfault hwait
    _ = _ := by simp only [State.runPhases, hfetch]

/-- Rule R64: the sentinel. -/
theorem step_running_sentinel {s : State} (hr : s.Running) (hop : s.Fetches 0x0000#16) :
    step s = .next s.sampleKeys := by
  rw [step_running_fetches hr hop, State.runOpcode, if_pos rfl]
  rfl

/-- A fetch that cannot fail: below 0xFFF the opcode at `pc` is in memory. -/
theorem State.fetches_or_top (s : State) : (∃ op, s.Fetches op) ∨ s.pc = 0xFFF#12 := by
  by_cases h : s.pc.toNat + 1 ≤ 0xFFF
  · exact .inl ⟨_, h, rfl⟩
  · refine .inr (BitVec.eq_of_toNat_eq ?_)
    have : s.pc.toNat < 4096 := s.pc.isLt
    simp only [BitVec.toNat_ofNat]
    omega

/-- A memory holds one opcode at `pc`. -/
theorem State.Fetches.unique {s : State} {op op' : Opcode} (h : s.Fetches op) (h' : s.Fetches op') : op = op' :=
  h.2.symm.trans h'.2

/-- Settles O11: the address of the missing byte is 0x1000. -/
theorem fetchPastTopRaises : Obligations.FetchPastTopRaises := by
  intro s hr hpc
  refine ⟨_, step_running_top hr hpc, ?_⟩
  rw [State.raise_fault, State.sampleKeys_pc, hpc]

/-- Settles O12: sampling the keys touches neither the latch, the wait, `pc` nor memory, so the core stays halted. -/
theorem sentinelHalts : Obligations.SentinelHalts := by
  refine ⟨fun _ => rfl, ?_⟩
  intro s hhalted
  exact ⟨s.sampleKeys, step_running_sentinel hhalted.1 hhalted.2, rfl, hhalted⟩

/-- Settles O14: the state with the keys sampled and the timers stepped, written out. -/
theorem stepRunsDecodedInstruction : Obligations.StepRunsDecodedInstruction := by
  intro s op i hr hop _ hd _
  exact step_running_decoded hr hop hd

/-! ## Everything a tick can answer -/

/-- Phases 0 and 1: an error is latched, or the wait goes on, or the tick is that of the running core with these
registers. -/
theorem step_phases (s : State) :
    ((∃ e, s.fault = some e) ∧ step s = .next s.sampleKeys) ∨
    (s.fault = none ∧ s.waitForKey ≠ none ∧ s.nextKeys = 0x0000#16 ∧ step s = .next s.sampleKeys) ∨
    ∃ v, s.fault = none ∧ (s.waitForKey = none ∨ s.nextKeys ≠ 0x0000#16) ∧ step s = step (s.awake v) := by
  cases hf : s.fault with
  | some e => exact .inl ⟨⟨e, rfl⟩, step_faulted hf⟩
  | none =>
    cases hw : s.waitForKey with
    | none =>
      have hawake : s.awake s.v = s := by rw [State.awake, ← hw]
      exact .inr (.inr ⟨s.v, rfl, .inl rfl, by rw [hawake]⟩)
    | some r =>
      cases hk : lowestKey s.nextKeys with
      | none =>
        have hzero := lowestKey_none.mp hk
        exact .inr (.inl ⟨rfl, by simp, hzero, step_waiting ⟨hf, hw⟩ hzero⟩)
      | some k =>
        have hdown : s.nextKeys ≠ 0x0000#16 := fun e => by simp [lowestKey_none.mpr e] at hk
        exact .inr (.inr ⟨_, rfl, .inr hdown, step_wakes ⟨hf, hw⟩ hk⟩)

/-- Phases 2 to 5: the fetch fails, or the sentinel is found, or the word is invalid, or an instruction runs. -/
theorem step_running (u : State) (hr : u.Running) :
    (u.pc = 0xFFF#12 ∧ step u = .next (u.sampleKeys.raise (.addressOutOfRange 0x1000) 0x0000#16)) ∨
    (u.Fetches 0x0000#16 ∧ step u = .next u.sampleKeys) ∨
    (∃ op, op ≠ 0x0000#16 ∧ decode op = none ∧
      step u = .next (u.sampleKeys.stepTimers.raise .invalidInstruction op)) ∨
    ∃ i, i ≠ .halt0 ∧ u.Fetches (encode i) ∧ step u = exec i u.sampleKeys.stepTimers := by
  rcases u.fetches_or_top with ⟨op, hop⟩ | htop
  · by_cases h0 : op = 0x0000#16
    · subst h0
      exact .inr (.inl ⟨hop, step_running_sentinel hr hop⟩)
    · cases hd : decode op with
      | none =>
        refine .inr (.inr (.inl ⟨op, h0, hd, ?_⟩))
        rw [step_running_fetches hr hop, State.runOpcode_invalid _ h0 hd]
      | some i =>
        have hword : encode i = op := encode_of_decode hd
        have hne : i ≠ .halt0 := by
          rintro rfl
          exact h0 hword.symm
        exact .inr (.inr (.inr ⟨i, hne, hword ▸ hop, step_running_decoded hr hop hd⟩))
  · exact .inl ⟨htop, step_running_top hr htop⟩

/-- Settles O16: each answer is a next state. -/
theorem stepAlwaysReturns : Obligations.StepAlwaysReturns := by
  intro s
  rcases step_phases s with ⟨-, h⟩ | ⟨-, -, -, h⟩ | ⟨v, hfault, -, hstep⟩
  · exact ⟨_, h⟩
  · exact ⟨_, h⟩
  · rw [hstep]
    rcases step_running (s.awake v) ⟨hfault, rfl⟩ with ⟨-, h⟩ | ⟨-, h⟩ | ⟨op, -, -, h⟩ | ⟨i, -, -, h⟩
    · exact ⟨_, h⟩
    · exact ⟨_, h⟩
    · exact ⟨_, h⟩
    · rw [h]
      exact exec_next i _

/-- Everything a tick without an error can answer, the opcode being fetched from the memory before it. -/
theorem step_inv {s t : State} (h : step s = .next t) (ht : t.fault = none) :
    (s.waitForKey ≠ none ∧ s.nextKeys = 0x0000#16 ∧ t = s.sampleKeys) ∨
    ((s.waitForKey = none ∨ s.nextKeys ≠ 0x0000#16) ∧ ∃ v,
      (s.Fetches 0x0000#16 ∧ t = (s.awake v).sampleKeys) ∨
      ∃ i, i ≠ .halt0 ∧ s.Fetches (encode i) ∧ errorOf i (s.awake v).sampleKeys.stepTimers = none ∧
        t = okState i (s.awake v).sampleKeys.stepTimers) := by
  rcases step_phases s with ⟨⟨e, he⟩, hs⟩ | ⟨-, hwait, hzero, hs⟩ | ⟨v, hfault, hawake, hs⟩
  · rw [hs] at h
    rw [← Host.Outcome.next.inj h, State.sampleKeys_fault, he] at ht
    cases ht
  · rw [hs] at h
    exact .inl ⟨hwait, hzero, (Host.Outcome.next.inj h).symm⟩
  · rw [hs] at h
    refine .inr ⟨hawake, v, ?_⟩
    rcases step_running (s.awake v) ⟨hfault, rfl⟩ with ⟨-, hr⟩ | ⟨hop, hr⟩ | ⟨op, -, -, hr⟩ | ⟨i, hi, hop, hr⟩
    · rw [hr] at h
      rw [← Host.Outcome.next.inj h] at ht
      exact absurd ht (State.raise_not_ok _ _ _)
    · rw [hr] at h
      exact .inl ⟨hop, (Host.Outcome.next.inj h).symm⟩
    · rw [hr] at h
      rw [← Host.Outcome.next.inj h] at ht
      exact absurd ht (State.raise_not_ok _ _ _)
    · rw [hr] at h
      exact .inr ⟨i, hi, hop, exec_inv h ht⟩

/-! ## What no tick changes but its own instruction -/

/-- Settles O15: both timers are stepped before the instruction runs, and only its own writer touches a timer after. -/
theorem timersCountDown : Obligations.TimersCountDown := by
  intro s t op hr hop h0 h ht
  rcases step_inv h ht with ⟨hwait, -, -⟩ | ⟨-, v, ⟨hzero, -⟩ | ⟨i, -, hi, -, rfl⟩⟩
  · exact absurd hr.2 hwait
  · exact absurd (hop.unique hzero) h0
  · have hword : op = encode i := hop.unique hi
    refine ⟨fun hdt => ?_, fun hst => ?_⟩
    · rw [okState_dt (fun x e => hdt x (e ▸ hword))]
      exact countDown_toNat s.dt
    · rw [okState_st (fun x e => hst x (e ▸ hword))]
      exact countDown_toNat s.st

/-- Settles O18: the fetched word names one instruction, and only `Cxkk` touches the generator. -/
theorem randomAdvancesOnlyByRnd : Obligations.RandomAdvancesOnlyByRnd := by
  intro s t h ht
  rcases step_inv h ht with ⟨hwait, hzero, rfl⟩ | ⟨hruns, v, ⟨hop, rfl⟩ | ⟨i, -, hop, -, rfl⟩⟩
  case inl =>
    exact ⟨fun _ _ _ hruns => absurd hruns (by simp [hwait, hzero]), fun _ => rfl⟩
  case inr.inl =>
    refine ⟨fun x kk hrnd _ => ?_, fun _ => rfl⟩
    exact absurd (hrnd.unique hop) (encode_ne_sentinel (by simp))
  case inr.inr =>
    refine ⟨fun x kk hrnd _ => ?_, fun hidle => okState_rng fun x kk e => ?_⟩
    · rw [encode_injective (hop.unique hrnd)]
      rfl
    · rcases hidle with hnot | ⟨hwait, hzero⟩
      · exact hnot x kk (e ▸ hop)
      · simp [hwait, hzero] at hruns

/-- Settles O19: phases 0 to 4 leave the framebuffer alone, and so does every other instruction. -/
theorem screenChangesOnlyByClsAndDrw : Obligations.ScreenChangesOnlyByClsAndDrw := by
  intro s t h ht
  rcases step_inv h ht with ⟨-, -, rfl⟩ | ⟨-, v, ⟨-, rfl⟩ | ⟨i, -, hop, -, rfl⟩⟩
  · exact .inl rfl
  · exact .inl rfl
  · by_cases hcls : i = .cls
    · exact .inr (.inl (hcls ▸ hop))
    by_cases hdrw : ∃ x y n, i = .drw x y n
    · obtain ⟨x, y, n, rfl⟩ := hdrw
      exact .inr (.inr ⟨x, y, n, hop⟩)
    · exact .inl (okState_fb hcls (fun x y n e => hdrw ⟨x, y, n, e⟩))

/-! ## The program counter -/

theorem State.skipTarget_cases (s : State) (taken : Bool) :
    s.skipTarget taken = s.pc + 2#12 ∨ s.skipTarget taken = s.pc + 4#12 := by
  cases taken with
  | false => exact .inl rfl
  | true => exact .inr rfl

/-- Rule R82 (c): where an instruction that raises nothing leaves `pc`. -/
theorem nextPcOf_cases {i : Instr} {s : State} (hi : i ≠ .halt0) (he : errorOf i s = none) :
    nextPcOf i s = s.pc + 2#12 ∨ nextPcOf i s = s.pc + 4#12 ∨
    (∃ nnn, (i = .jp nnn ∨ i = .call nnn) ∧ nextPcOf i s = nnn) ∨
    (i = .ret ∧ 0 < s.sp.val ∧ s.stack[s.sp.val - 1]? = some (nextPcOf i s)) := by
  cases i with
  | halt0 => exact absurd rfl hi
  | jp nnn => exact .inr (.inr (.inl ⟨nnn, .inl rfl, rfl⟩))
  | call nnn => exact .inr (.inr (.inl ⟨nnn, .inr rfl, rfl⟩))
  | ret =>
    have hpos : 0 < s.sp.val := Nat.pos_of_ne_zero fun hempty => by simp [errorOf_ret_empty hempty] at he
    have hin : s.sp.val - 1 < 16 := by omega
    exact .inr (.inr (.inr ⟨rfl, hpos, by simp [nextPcOf, hin]⟩))
  | seImm | sneImm | seReg | sneReg | skp | sknp =>
    exact (s.skipTarget_cases _).imp_right .inl
  | _ => exact .inl rfl

/-- Settles O17: phases 0 to 4 leave `pc`, memory and the stack alone, so the instruction's target is one of those. -/
theorem programCounterTargets : Obligations.ProgramCounterTargets := by
  intro s t h ht
  rcases step_inv h ht with ⟨hwait, hzero, rfl⟩ | ⟨-, v, ⟨hop, rfl⟩ | ⟨i, hi, hop, he, rfl⟩⟩
  · exact .inl ⟨rfl, .inr ⟨hwait, hzero⟩⟩
  · exact .inl ⟨rfl, .inl hop⟩
  · rcases nextPcOf_cases hi he with hpc | hpc | ⟨nnn, rfl | rfl, hpc⟩ | ⟨rfl, hpos, hpc⟩
    · exact .inr (.inl hpc)
    · exact .inr (.inr (.inl hpc))
    · exact .inr (.inr (.inr (.inl ⟨nnn, .inl hop, hpc⟩)))
    · exact .inr (.inr (.inr (.inl ⟨nnn, .inr hop, hpc⟩)))
    · exact .inr (.inr (.inr (.inr ⟨hop, hpos, hpc⟩)))

end Sys2Proof.Machine
end

section
/-! The invariant (60_exceptions.md rule R130, 20_memory.md rule R30): no instruction breaks memory's canonical form,
and every record the table gives is one the spec describes. -/

namespace Sys2Proof.Machine

/-! ## Memory -/

/-- Where the table names no error, every store is to an address that exists. -/
theorem okState_wf {i : Instr} {s : State} (hwf : Mem.wf s.mem = true) (he : errorOf i s = none) :
    Mem.wf (okState i s).mem = true := by
  cases i with
  | ldBVx x =>
    obtain ⟨hfit, -⟩ := State.reachError_eq_none.mp he
    have hlen : (bcdDigits (s.reg x)).length = 3 := rfl
    exact Mem.wf_writeList hwf _ (by omega)
  | stRegs x =>
    obtain ⟨hfit, -⟩ := State.reachError_eq_none.mp he
    have hlen := storedRegs_length s x
    exact Mem.wf_writeList hwf _ (by omega)
  | _ => exact hwf

/-! ## Records -/

/-- The largest sum an instruction forms. -/
theorem legal_rangeError {i : Instr} {n : Nat} {k : ErrorKind} (hi : i ≠ .halt0) (hn : n ≤ 0xFFF + 0xFF)
    (h : rangeError n = some k) (pc : Addr) : ErrorRecord.legal ⟨k, pc, encode i⟩ = true := by
  have habove : 0xFFF < n := by
    by_contra hle
    rw [rangeError_fits (Nat.not_lt.mp hle)] at h
    cases h
  rw [rangeError_above habove] at h
  cases h
  simp [ErrorRecord.legal, decode_encode hi, habove, hn]

theorem legal_reachError {i : Instr} {s : State} {last : Nat} {k : ErrorKind} (hi : i ≠ .halt0)
    (h : s.reachError last = some k) (pc : Addr) : ErrorRecord.legal ⟨k, pc, encode i⟩ = true := by
  have hpc : s.pc.toNat < 4096 := s.pc.isLt
  by_cases hlast : last ≤ 0xFFF
  · rw [State.reachError_fits hlast] at h
    exact legal_rangeError hi (by omega) h pc
  · rw [State.reachError_above (Nat.lt_of_not_le hlast)] at h
    exact legal_rangeError (n := 0x1000) hi (by decide) h pc

theorem legal_skipError {i : Instr} {s : State} {taken : Bool} {k : ErrorKind} (hi : i ≠ .halt0)
    (h : s.skipError taken = some k) (pc : Addr) : ErrorRecord.legal ⟨k, pc, encode i⟩ = true := by
  have hpc : s.pc.toNat < 4096 := s.pc.isLt
  exact legal_rangeError hi (by split <;> omega) h pc

/-- A key skip's error: the key, or the skip's. -/
theorem legal_keyError {i : Instr} {s : State} {x : Nibble} {taken : Bool} {k : ErrorKind}
    (hi : i = .skp x ∨ i = .sknp x) (h : s.keyError x (s.skipError taken) = some k) (pc : Addr) :
    ErrorRecord.legal ⟨k, pc, encode i⟩ = true := by
  by_cases hx : (s.reg x).toNat ≤ 15
  · rw [State.keyError_digit hx] at h
    refine legal_skipError ?_ h pc
    rcases hi with rfl | rfl <;> simp
  · rw [State.keyError_above (Nat.lt_of_not_le hx)] at h
    cases h
    rcases hi with rfl | rfl <;> simp [ErrorRecord.legal, encode]

/-- A sum written to `I`, then the advance. -/
theorem legal_sumError {i : Instr} {s : State} {n : Nat} {k : ErrorKind} (hi : i ≠ .halt0) (hn : n ≤ 0xFFF + 0xFF)
    (h : (rangeError n).or (rangeError (s.pc.toNat + 2)) = some k) (pc : Addr) :
    ErrorRecord.legal ⟨k, pc, encode i⟩ = true := by
  have hpc : s.pc.toNat < 4096 := s.pc.isLt
  rcases Option.or_eq_some_iff.mp h with h | ⟨-, h⟩
  · exact legal_rangeError hi hn h pc
  · exact legal_rangeError hi (by omega) h pc

/-- Rules R130 and R131: every error of the table makes a legal record. -/
theorem errorOf_legal {i : Instr} {s : State} {k : ErrorKind} (h : errorOf i s = some k) (pc : Addr) :
    ErrorRecord.legal ⟨k, pc, encode i⟩ = true := by
  have hpc : s.pc.toNat < 4096 := s.pc.isLt
  have hbase : s.base ≤ 0xFFF := s.base_le
  cases i with
  | halt0 | jp => cases h
  | ret =>
    simp only [errorOf, Option.ite_none_right_eq_some] at h
    obtain ⟨-, h⟩ := h
    cases h
    rfl
  | call nnn =>
    by_cases hfull : s.sp.val = 16
    · rw [errorOf_call_full nnn hfull] at h
      cases h
      simp [ErrorRecord.legal, encode]
    · rw [errorOf_call nnn (by omega)] at h
      exact legal_rangeError (by simp) (by omega) h pc
  | seImm | sneImm | seReg | sneReg => exact legal_skipError (by simp) h pc
  | skp => exact legal_keyError (.inl rfl) h pc
  | sknp => exact legal_keyError (.inr rfl) h pc
  | ldIV0 nnn =>
    have hnnn : nnn.toNat < 4096 := nnn.isLt
    have hv : (s.reg 0x0#4).toNat < 256 := (s.reg 0x0#4).isLt
    exact legal_sumError (by simp) (by omega) h pc
  | addIVx x =>
    have hv : (s.reg x).toNat < 256 := (s.reg x).isLt
    exact legal_sumError (by simp) (by omega) h pc
  | ldBVx | stRegs | ldRegs | drw => exact legal_reachError (by simp) h pc
  | _ => exact legal_rangeError (n := s.pc.toNat + 2) (by simp) (by omega) h pc

/-! ## The step -/

/-- An error leaves a canonical memory and its own record. -/
theorem State.inv_raise {s : State} {k : ErrorKind} {op : Opcode} (h : ErrorRecord.legal ⟨k, s.pc, op⟩ = true) :
    (s.raise k op).Inv :=
  ⟨Mem.wf_ofCells _, h⟩

/-- `exec` keeps the invariant where no error was latched. -/
theorem exec_keeps_inv {i : Instr} {s t : State} (hwf : Mem.wf s.mem = true) (hfault : s.fault = none)
    (h : exec i s = .next t) : t.Inv := by
  cases he : errorOf i s with
  | none =>
    rw [exec_ok he] at h
    rw [← Host.Outcome.next.inj h]
    exact ⟨okState_wf hwf he, by simp [okState_fault, hfault]⟩
  | some k =>
    rw [exec_error he] at h
    rw [← Host.Outcome.next.inj h]
    exact State.inv_raise (errorOf_legal he s.pc)

theorem step_running_keeps_inv {u t : State} (hr : u.Running) (hwf : Mem.wf u.mem = true) (h : step u = .next t) :
    t.Inv := by
  rcases step_running u hr with ⟨hpc, hs⟩ | ⟨-, hs⟩ | ⟨op, h0, hd, hs⟩ | ⟨i, -, -, hs⟩
  · rw [← Host.Outcome.next.inj (hs.symm.trans h)]
    refine State.inv_raise ?_
    rw [State.sampleKeys_pc, hpc]
    decide
  · rw [← Host.Outcome.next.inj (hs.symm.trans h)]
    exact ⟨hwf, by simp [hr.1]⟩
  · rw [← Host.Outcome.next.inj (hs.symm.trans h)]
    refine State.inv_raise ?_
    simp [ErrorRecord.legal, identify, h0, hd]
  · exact exec_keeps_inv (s := u.sampleKeys.stepTimers) hwf hr.1 (hs.symm.trans h)

/-- Settles O24: a tick that only samples the keys keeps memory and the latch, and waking keeps memory. -/
theorem stepKeepsInvariant : Obligations.StepKeepsInvariant := by
  intro s t hinv h
  rcases step_phases s with ⟨-, hs⟩ | ⟨-, -, -, hs⟩ | ⟨v, hfault, -, hs⟩
  · rw [← Host.Outcome.next.inj (hs.symm.trans h)]
    exact hinv
  · rw [← Host.Outcome.next.inj (hs.symm.trans h)]
    exact hinv
  · exact step_running_keeps_inv (u := s.awake v) ⟨hfault, rfl⟩ hinv.1 (hs.symm.trans h)

end Sys2Proof.Machine
end

section
/-! Control transfer (41_control_flow.md rules R75 to R82) and the key skips (46_keys_timers.md rules R121, R122). -/

namespace Sys2Proof.Machine

/-! ## Call and return -/

/-- What a return pops, the stack not being empty. -/
theorem okState_ret_pc {s : State} (h : 0 < s.sp.val) : s.stack[s.sp.val - 1]? = some (okState .ret s).pc := by
  have hin : s.sp.val - 1 < 16 := by omega
  simp [okState, nextPcOf, hin]

theorem okState_call_stack (nnn : Addr) (s : State) (j : Nat) :
    (okState (.call nnn) s).stack[j]? =
      if s.sp.val = j then (if s.sp.val < 16 then some (s.pc + 2#12) else none) else s.stack[j]? :=
  Vector.getElem?_setIfInBounds

theorem okState_call_sp {s : State} (nnn : Addr) (hsp : s.sp.val < 16) :
    (okState (.call nnn) s).sp.val = s.sp.val + 1 :=
  Nat.mod_eq_of_lt (Nat.succ_lt_succ hsp)

/-- Settles O28: the table tests `sp` alone, since a popped address is in range. -/
theorem retPops : Obligations.RetPops := by
  refine ⟨decode_encode (i := .ret) (by simp), fun s h => ?pops, fun s h => ?empty⟩
  case pops => exact ⟨okState .ret s, exec_ok (errorOf_ret h), okState_ret_pc h, rfl, rfl⟩
  case empty => exact exec_raised (errorOf_ret_empty h)

/-- Settles O30: the table's order is the push's own, the full stack first. -/
theorem callPushes : Obligations.CallPushes := by
  intro nnn s
  refine ⟨fun hsp hfits => ?pushes, fun hfull => ?full, fun hsp hfits => ?range⟩
  case pushes =>
    refine ⟨okState (.call nnn) s, exec_ok ((errorOf_call nnn hsp).trans (rangeError_fits hfits)), ?_, fun j hj => ?_,
      okState_call_sp nnn hsp, rfl⟩
    · rw [okState_call_stack, if_pos rfl, if_pos hsp]
    · rw [okState_call_stack, if_neg hj.symm]
  case full => exact exec_raised (errorOf_call_full nnn hfull)
  case range => exact exec_raised ((errorOf_call nnn hsp).trans (rangeError_above (Nat.lt_of_not_le hfits)))

/-- Settles O31: the return reads the entry the call wrote, and lowers the index it raised. -/
theorem returnAfterCall : Obligations.ReturnAfterCall := by
  intro nnn s t u hcall ht hstack hsp
  obtain ⟨he, rfl⟩ := exec_inv hcall ht
  have hroom : s.sp.val < 16 := by
    by_contra hfull
    rw [errorOf_call_full nnn (by omega)] at he
    cases he
  have hu : u.sp.val = s.sp.val + 1 := by rw [hsp, okState_call_sp nnn hroom]
  have hpos : 0 < u.sp.val := by omega
  refine ⟨okState .ret u, exec_ok (errorOf_ret hpos), ?pc, Fin.ext ?sp⟩
  case pc =>
    have hpop := okState_ret_pc hpos
    rw [hu, Nat.add_sub_cancel, hstack, okState_call_stack, if_pos rfl, if_pos hroom] at hpop
    exact (Option.some.inj hpop).symm
  case sp =>
    calc u.sp.val - 1 = s.sp.val := by omega

/-! ## Skips -/

/-- An instruction whose meaning is the skip on `taken`. -/
def SkipsOn (i : Instr) (s : State) (taken : Bool) : Prop :=
  errorOf i s = s.skipError taken ∧ okState i s = { s with pc := s.skipTarget taken }

theorem exec_skip_taken {i : Instr} {s : State} {taken : Bool} (hi : SkipsOn i s taken) (ht : taken = true)
    (hfits : s.SkipFits) : exec i s = .next { s with pc := s.pc + 4#12 } := by
  subst ht
  obtain ⟨herr, hok⟩ := hi
  have hnone : s.skipError true = none := rangeError_fits hfits
  rw [exec_ok (herr.trans hnone), hok]
  rfl

theorem exec_skip_not_taken {i : Instr} {s : State} {taken : Bool} (hi : SkipsOn i s taken) (ht : taken = false)
    (hfits : s.AdvanceFits) : exec i s = .next { s with pc := s.pc + 2#12 } := by
  subst ht
  obtain ⟨herr, hok⟩ := hi
  have hnone : s.skipError false = none := rangeError_fits hfits
  rw [exec_ok (herr.trans hnone), hok]
  rfl

theorem seImm_skipsOn (x : Nibble) (kk : Byte) (s : State) : SkipsOn (.seImm x kk) s (s.reg x == kk) := ⟨rfl, rfl⟩
theorem sneImm_skipsOn (x : Nibble) (kk : Byte) (s : State) : SkipsOn (.sneImm x kk) s (s.reg x != kk) := ⟨rfl, rfl⟩
theorem seReg_skipsOn (x y : Nibble) (s : State) : SkipsOn (.seReg x y) s (s.reg x == s.reg y) := ⟨rfl, rfl⟩
theorem sneReg_skipsOn (x y : Nibble) (s : State) : SkipsOn (.sneReg x y) s (s.reg x != s.reg y) := ⟨rfl, rfl⟩

/-- On a register of at most 15 the key skips are skips on that key. -/
theorem skp_skipsOn {x : Nibble} {s : State} (h : (s.reg x).toNat ≤ 15) :
    SkipsOn (.skp x) s (s.keys.getLsbD (s.reg x).toNat) := ⟨State.keyError_digit h _, rfl⟩

theorem sknp_skipsOn {x : Nibble} {s : State} (h : (s.reg x).toNat ≤ 15) :
    SkipsOn (.sknp x) s (!s.keys.getLsbD (s.reg x).toNat) := ⟨State.keyError_digit h _, rfl⟩

/-- Settles O32: skips on `V[x] = kk` and on its negation. -/
theorem immediateSkips : Obligations.ImmediateSkips := by
  intro x kk s
  exact ⟨fun h => exec_skip_taken (seImm_skipsOn x kk s) (beq_iff_eq.mpr h),
    fun h => exec_skip_not_taken (seImm_skipsOn x kk s) (beq_eq_false_iff_ne.mpr h),
    fun h => exec_skip_taken (sneImm_skipsOn x kk s) (bne_iff_ne.mpr h),
    fun h => exec_skip_not_taken (sneImm_skipsOn x kk s) (bne_eq_false_iff_eq.mpr h)⟩

/-- Settles O33: skips on `V[x] = V[y]` and on its negation. -/
theorem registerSkips : Obligations.RegisterSkips := by
  intro x y s
  exact ⟨fun h => exec_skip_taken (seReg_skipsOn x y s) (beq_iff_eq.mpr h),
    fun h => exec_skip_not_taken (seReg_skipsOn x y s) (beq_eq_false_iff_ne.mpr h),
    fun h => exec_skip_taken (sneReg_skipsOn x y s) (bne_iff_ne.mpr h),
    fun h => exec_skip_not_taken (sneReg_skipsOn x y s) (bne_eq_false_iff_eq.mpr h)⟩

/-- Settles O53: on a register of at most 15 the key is the skip's condition. -/
theorem keySkips : Obligations.KeySkips := by
  intro x s hx
  exact ⟨fun h => exec_skip_taken (skp_skipsOn hx) h,
    fun h => exec_skip_not_taken (skp_skipsOn hx) h,
    fun h => exec_skip_taken (sknp_skipsOn hx) (by rw [h, Bool.not_false]),
    fun h => exec_skip_not_taken (sknp_skipsOn hx) (by rw [h, Bool.not_true])⟩

end Sys2Proof.Machine
end

section
/-! The rest of the ALU (42_alu.md rules R88 to R97): the logic instructions write one register and no flag, the others
a result and then the flag. -/

namespace Sys2Proof.Machine

/-- Settles O37: one register write, so `VF` is kept. -/
theorem orCombines : Obligations.OrCombines := by
  intro x y s hfits
  exact ⟨_, rfl, State.reg_advance_setReg hfits (.or x y) x _, State.advance_setReg_frame hfits _ x _⟩

/-- Settles O38: one register write, so `VF` is kept. -/
theorem andCombines : Obligations.AndCombines := by
  intro x y s hfits
  exact ⟨decode_encode (i := .and x y) (by simp), _, rfl,
    State.reg_advance_setReg hfits (.and x y) x _, State.advance_setReg_frame hfits _ x _⟩

/-- Settles O39: a byte XOR itself is 0x00. -/
theorem xorCombines : Obligations.XorCombines := by
  intro x y s hfits
  refine ⟨decode_encode (i := .xor x y) (by simp), ⟨_, rfl, State.reg_advance_setReg hfits (.xor x y) x _,
    State.advance_setReg_frame hfits _ x _⟩, _, rfl, ?clears⟩
  case clears => rw [State.reg_advance_setReg hfits, if_pos rfl, BitVec.xor_self]

/-- An instruction that writes a result and then the flag (rule R97), where `pc` can advance. -/
theorem exec_resultFlag {i : Instr} {s : State} {x : Nibble} {result : Byte} {flag : Bool} (hfits : s.AdvanceFits)
    (hi : exec i s = .next ((s.setResultFlag x result flag).advance i)) :
    ∃ t, exec i s = .next t ∧ t.reg 0xF#4 = flagByte flag ∧ (x ≠ 0xF#4 → t.reg x = result) ∧
      (∀ r, r ≠ x → r ≠ 0xF#4 → t.reg r = s.reg r) ∧ t = { s with v := t.v, pc := s.pc + 2#12 } := by
  rw [State.advance_ok (s := s.setResultFlag x result flag) i hfits] at hi
  have hreg := State.reg_setResultFlag s x result flag
  refine ⟨_, hi, (hreg _).trans (if_pos rfl), fun hx => (hreg x).trans ?_, fun r hr hf => (hreg r).trans ?_, rfl⟩
  · rw [if_neg hx, if_pos rfl]
  · rw [if_neg hf, if_neg hr.symm]

theorem flagByte_decide (p : Prop) [Decidable p] : flagByte (decide p) = if p then 0x01#8 else 0x00#8 := by
  by_cases h : p <;> simp [flagByte, h]

theorem flagByte_getLsbD_toNat (b : Byte) (j : Nat) : (flagByte (b.getLsbD j)).toNat = b.toNat / 2 ^ j % 2 := by
  rw [← Nat.toNat_testBit]
  cases h : b.getLsbD j <;> simp [flagByte, BitVec.testBit_toNat, h]

/-- Settles O40: the byte is the 8-bit sum, the flag the carry of the unbounded one. -/
theorem addRegAndCarry : Obligations.AddRegAndCarry := by
  intro x y s hfits
  obtain ⟨t, hexec, hflag, hresult, hkept, hframe⟩ := exec_resultFlag (i := .addReg x y) hfits rfl
  refine ⟨t, hexec, hflag.trans (flagByte_decide _), fun hx => ?sum, hkept, hframe⟩
  case sum => rw [hresult hx, BitVec.toNat_add]

/-- The difference of two bytes is the integer difference modulo 256. -/
theorem sub_toNat_emod (a b : Byte) : ((a - b).toNat : Int) = (a.toNat - b.toNat : Int) % 256 := by
  have hb : b.toNat < 256 := b.isLt
  rw [BitVec.toNat_sub]
  omega

/-- Settles O41: the two differ in which register is the minuend. -/
theorem subtractionsAndNotBorrow : Obligations.SubtractionsAndNotBorrow := by
  intro x y s hfits
  constructor
  case left =>
    obtain ⟨t, hexec, hflag, hresult, hkept, hframe⟩ := exec_resultFlag (i := .sub x y) hfits rfl
    exact ⟨t, hexec, hflag.trans (flagByte_decide _), fun hx => hresult hx ▸ sub_toNat_emod _ _, hkept, hframe⟩
  case right =>
    obtain ⟨t, hexec, hflag, hresult, hkept, hframe⟩ := exec_resultFlag (i := .subn x y) hfits rfl
    exact ⟨t, hexec, hflag.trans (flagByte_decide _), fun hx => hresult hx ▸ sub_toNat_emod _ _, hkept, hframe⟩

/-- Settles O42: the bit out is bit 0 of `V[y]` to the right, bit 7 to the left. -/
theorem shiftsAndBitOut : Obligations.ShiftsAndBitOut := by
  intro x y s hfits
  have hy : (s.reg y).toNat < 256 := (s.reg y).isLt
  constructor
  case left =>
    obtain ⟨t, hexec, hflag, hresult, hkept, hframe⟩ := exec_resultFlag (i := .shr x y) hfits rfl
    refine ⟨t, hexec, ?_, fun hx => ?_, hkept, hframe⟩
    · rw [hflag, lsbOf, flagByte_getLsbD_toNat, pow_zero, Nat.div_one]
    · rw [hresult hx, BitVec.toNat_ushiftRight, Nat.shiftRight_one]
  case right =>
    obtain ⟨t, hexec, hflag, hresult, hkept, hframe⟩ := exec_resultFlag (i := .shl x y) hfits rfl
    refine ⟨t, hexec, ?_, fun hx => ?_, hkept, hframe⟩
    · rw [hflag, msbOf, flagByte_getLsbD_toNat]
      omega
    · rw [hresult hx, BitVec.toNat_shiftLeft, Nat.shiftLeft_eq, pow_one]

end Sys2Proof.Machine
end

section
/-! `I` and the memory instructions (43_index_memory.md rules R101 to R107), and the fetch of what was stored
(20_memory.md rule R42). -/

namespace Sys2Proof.Machine

/-! ## Sums and glyph addresses -/

theorem ofNat_toNat_addr {n : Nat} (h : n ≤ 0xFFF) : (BitVec.ofNat 12 n).toNat = n :=
  Nat.mod_eq_of_lt (Nat.lt_succ_of_le h)

/-- An instruction that writes the sum `n` to `I`, then advances. -/
theorem exec_sum {i : Instr} {s : State} {n : Nat}
    (herr : errorOf i s = (rangeError n).or (rangeError (s.pc.toNat + 2)))
    (hok : okState i s = { s with iReg := BitVec.ofNat 12 n, pc := s.pc + 2#12 }) :
    (n ≤ 0xFFF → s.AdvanceFits → ∃ t, exec i s = .next t ∧ t.iReg.toNat = n ∧
      t = { s with iReg := t.iReg, pc := s.pc + 2#12 }) ∧
    (0xFFF < n → ∃ t, exec i s = .next t ∧ t.Raised (.addressOutOfRange n) s.pc (encode i)) := by
  refine ⟨fun hn hfits => ?fits, fun hn => ?above⟩
  case fits =>
    have hnone : errorOf i s = none := by rw [herr, rangeError_fits hn, rangeError_fits hfits, Option.or_none]
    exact ⟨_, (exec_ok hnone).trans (congrArg _ hok), ofNat_toNat_addr hn, rfl⟩
  case above => exact exec_raised (by rw [herr, rangeError_above hn, Option.some_or])

/-- Settles O44: both write a sum to `I`. -/
theorem indexSums : Obligations.IndexSums := by
  intro nnn x s
  obtain ⟨hV0, hV0above⟩ := exec_sum (i := .ldIV0 nnn) (s := s) rfl rfl
  obtain ⟨hVx, hVxabove⟩ := exec_sum (i := .addIVx x) (s := s) rfl rfl
  exact ⟨hV0, hV0above, hVx, hVxabove⟩

/-- Settles O45: the glyph address of any byte is in range. -/
theorem ldFPointsAtGlyph : Obligations.LdFPointsAtGlyph := by
  intro x s hfits
  exact ⟨okState (.ldFVx x) s, exec_ok (rangeError_fits hfits), ofNat_toNat_addr (glyphAddress_le _), rfl⟩

/-! ## Stores -/

theorem ofNat_toNat_digit {d : Nat} (h : d ≤ 9) : (BitVec.ofNat 8 d).toNat = d :=
  Nat.mod_eq_of_lt (by omega)

/-- The bytes of a list just written, by position. -/
theorem read_writeList_at {m : Mem} (hwf : Mem.wf m = true) {a : Nat} {bs : List Byte} (hfit : a + bs.length ≤ 4096)
    {j : Nat} (hj : j < bs.length) : Mem.read (Mem.writeList m a bs) (a + j) = bs[j] := by
  rw [Mem.read_writeList hwf bs hfit, dif_pos ⟨Nat.le_add_right a j, by omega⟩]
  simp only [Nat.add_sub_cancel_left]

/-- Settles O46: the digits are the quotients and remainders the model writes. -/
theorem ldBStoresDigits : Obligations.LdBStoresDigits := by
  intro x s
  refine ⟨fun hwf hfit hfits => ?stores, fun habove => exec_raised (State.reachError_above habove)⟩
  case stores =>
    have he : errorOf (.ldBVx x) s = none := State.reachError_eq_none.mpr ⟨hfit, hfits⟩
    have hb : (s.reg x).toNat < 256 := (s.reg x).isLt
    have hdigit : ∀ (j : Nat) (hj : j < 3) {d : Nat}, d ≤ 9 → (bcdDigits (s.reg x))[j] = BitVec.ofNat 8 d →
        (Mem.read (okState (.ldBVx x) s).mem (s.base + j)).toNat = d := by
      intro j hj d hd hbyte
      have hread := read_writeList_at (bs := bcdDigits (s.reg x)) hwf (Nat.succ_le_succ hfit) hj
      exact (congrArg BitVec.toNat (hread.trans hbyte)).trans (ofNat_toNat_digit hd)
    refine ⟨okState (.ldBVx x) s, exec_ok he,
      ⟨(s.reg x).toNat / 100, (s.reg x).toNat / 10 % 10, (s.reg x).toNat % 10, by omega, by omega, by omega, by omega,
        hdigit 0 (by decide) (by omega) rfl, hdigit 1 (by decide) (by omega) rfl,
        hdigit 2 (by decide) (by omega) rfl⟩, fun a ha => ?_, rfl⟩
    exact okState_read hwf he (decide_eq_false (by omega))

/-- Rule R105: the byte `Fx55` leaves for each register up to `Vx`. -/
theorem okState_stRegs_read {s : State} {x r : Nibble} (hwf : Mem.wf s.mem = true)
    (hfit : s.base + x.toNat + 1 ≤ 0xFFF) (hr : r.toNat ≤ x.toNat) :
    Mem.read (okState (.stRegs x) s).mem (s.base + r.toNat) = s.reg r := by
  have hlen := storedRegs_length s x
  calc Mem.read (okState (.stRegs x) s).mem (s.base + r.toNat)
      = ((regsUpTo x).map s.reg)[r.toNat]'(by omega) := read_writeList_at hwf (by omega) (by omega)
    _ = s.reg r := by simp [regsUpTo]

/-- Settles O47: the reach of `I` past the last byte decides both clauses. -/
theorem stRegsStoresAndAdvances : Obligations.StRegsStoresAndAdvances := by
  intro x s
  refine ⟨fun hwf hfit hfits => ?stores, fun habove => exec_raised (State.reachError_above habove)⟩
  case stores =>
    have he : errorOf (.stRegs x) s = none := State.reachError_eq_none.mpr ⟨hfit, hfits⟩
    refine ⟨okState (.stRegs x) s, exec_ok he, fun r => okState_stRegs_read hwf hfit, fun a ha => ?_,
      ofNat_toNat_addr hfit, rfl⟩
    exact okState_read hwf he (decide_eq_false (by omega))

/-- Settles O48: as for the store; the registers loaded are read off one by one. -/
theorem ldRegsLoadsAndAdvances : Obligations.LdRegsLoadsAndAdvances := by
  intro x s
  refine ⟨fun hfit hfits => ?loads, fun habove => exec_raised (State.reachError_above habove)⟩
  case loads =>
    have he : errorOf (.ldRegs x) s = none := State.reachError_eq_none.mpr ⟨hfit, hfits⟩
    exact ⟨okState (.ldRegs x) s, exec_ok he, State.reg_loadedRegs s x, ofNat_toNat_addr hfit, rfl⟩

/-- Settles O21: `Fx55` advances to its own base, where it has put `V0` and `V1`. -/
theorem storedOpcodeIsFetched : Obligations.StoredOpcodeIsFetched := by
  intro s t x hwf _ hx hbase hexec ht
  obtain ⟨he, rfl⟩ := exec_inv hexec ht
  obtain ⟨hfit, hfits⟩ := State.reachError_eq_none.mp he
  have hpc : (okState (.stRegs x) s).pc.toNat = s.base := by
    calc (s.pc + 2#12).toNat = (s.pc.toNat + 2) % 4096 := BitVec.toNat_add ..
      _ = s.base := by omega
  have hhigh := okState_stRegs_read (r := 0x0#4) hwf hfit (Nat.zero_le _)
  have hlow := okState_stRegs_read (r := 0x1#4) hwf hfit hx
  refine ⟨by omega, ?_⟩
  rw [hpc, ← hhigh, ← hlow]
  rfl

end Sys2Proof.Machine
end

section
/-! Reset (10_state.md rule R23, 70_reset_and_hazards.md rule R150), the random byte (44_random.md rule R111), the wait
and the timers (46_keys_timers.md rules R124 to R126). -/

namespace Sys2Proof.Machine

/-! ## Reset -/

/-- After a reset memory holds FONT from 0x1B0 up and what is unlisted elsewhere. -/
theorem applyReset_read (s : State) (font : Vector Byte 80) (seed : Nat) (a : Nat) :
    Mem.read (s.applyReset font seed).mem a =
      if h : 0x1B0 ≤ a ∧ a < 0x1B0 + 80 then font[a - 0x1B0]'(by omega) else Mem.defaultByte a := by
  have hlen : font.toList.length = 80 := font.length_toList
  have hfit : fontBase + font.toList.length ≤ 4096 := by rw [hlen]; decide
  refine (Mem.read_writeList Mem.wf_nil font.toList hfit a).trans ?_
  simp [fontBase, Mem.read]

theorem defaultByte_outside {a : Nat} (h : a < 0x1B0 ∨ 0x200 ≤ a) : Mem.defaultByte a = 0x00#8 := by
  rw [Mem.defaultByte, if_neg]
  simp only [fontBase, fontSize]
  omega

/-- Settles O6: every value but memory's is the field's own. -/
theorem resetValues : Obligations.ResetValues := by
  intro s font seed
  refine ⟨s.applyReset font seed, rfl, rfl, fun r => ?regs, rfl, rfl, fun j hj => ?stack, rfl, rfl, rfl, rfl,
    Framebuffer.pixel_blank, rfl, rfl, fun j hj => ?font, fun a ha => ?zeros⟩
  case regs => exact Vector.getElem_replicate ..
  case stack => simp [State.applyReset, hj]
  case font =>
    have hin : 0x1B0 ≤ 0x1B0 + j ∧ 0x1B0 + j < 0x1B0 + 80 := by omega
    rw [applyReset_read, dif_pos hin]
    simp [hj]
  case zeros =>
    have hout : ¬ (0x1B0 ≤ a ∧ a < 0x1B0 + 80) := by omega
    rw [applyReset_read, dif_neg hout, defaultByte_outside ha]

/-- Settles O7: the memory lists nothing and no error is latched. -/
theorem resetMeetsInvariant : Obligations.ResetMeetsInvariant := ⟨Mem.wf_nil, rfl⟩

/-! ## The random byte -/

/-- Settles O49: no bit of a masked byte is outside its mask. -/
theorem rndDrawsAndMasks : Obligations.RndDrawsAndMasks := by
  intro x kk s hfits
  have hreg := State.reg_setReg s.drawRandom x (s.randomByte &&& kk)
  have hx : (okState (.rnd x kk) s).reg x = s.randomByte &&& kk := (hreg x).trans (if_pos rfl)
  refine ⟨okState (.rnd x kk) s, exec_ok (rangeError_fits hfits), hx, ?_, rfl, fun r hr => ?_, rfl⟩
  · rw [hx, BitVec.and_assoc, BitVec.and_not_self]
    exact BitVec.and_zero
  · exact (hreg r).trans (if_neg hr.symm)

/-! ## The wait and the timers -/

/-- Settles O55: the table names the advance's error alone, and the advance fits. -/
theorem ldVxKWaits : Obligations.LdVxKWaits := by
  intro x s hfits
  exact exec_ok (i := .ldVxK x) (rangeError_fits hfits)

theorem exec_ldDtVx {s : State} (x : Nibble) (hfits : s.AdvanceFits) :
    exec (.ldDtVx x) s = .next { s with dt := s.reg x, pc := s.pc + 2#12 } :=
  exec_ok (i := .ldDtVx x) (rangeError_fits hfits)

theorem exec_ldStVx {s : State} (x : Nibble) (hfits : s.AdvanceFits) :
    exec (.ldStVx x) s = .next { s with st := s.reg x, pc := s.pc + 2#12 } :=
  exec_ok (i := .ldStVx x) (rangeError_fits hfits)

/-- Settles O56: the tick steps the timers first, and that step leaves the registers. -/
theorem ldDtVxSetsTimer : Obligations.LdDtVxSetsTimer := by
  intro x s hfits
  have hword : decode (packXKK 0xF#4 x 0x15#8) = some (.ldDtVx x) := decode_encode (i := .ldDtVx x) (by simp)
  refine ⟨hword, exec_ldDtVx x hfits, fun hr hop => ?_⟩
  exact ⟨_, (step_running_decoded hr hop hword).trans (exec_ldDtVx (s := s.sampleKeys.stepTimers) x hfits), rfl⟩

/-- Settles O57: as for the delay timer, and the output is read from the timer written. -/
theorem ldStVxSetsTimer : Obligations.LdStVxSetsTimer := by
  intro x s hfits
  have hword : decode (packXKK 0xF#4 x 0x18#8) = some (.ldStVx x) := decode_encode (i := .ldStVx x) (by simp)
  refine ⟨hword, exec_ldStVx x hfits, fun hr hop => ?_⟩
  exact ⟨_, (step_running_decoded hr hop hword).trans (exec_ldStVx (s := s.sampleKeys.stepTimers) x hfits), rfl, rfl⟩

end Sys2Proof.Machine
end

section
/-! `Dxyn` (45_display.md rules R114 and R117): which pixels it inverts, when it sets `VF`, and what a second draw
does. -/

namespace Sys2Proof.Machine

/-! ## Pixels on the screen and coordinates beyond it -/

theorem Framebuffer.pixel_mod (fb : Framebuffer) (px py : Nat) :
    Framebuffer.pixel fb (px % 64) (py % 32) = Framebuffer.pixel fb px py := by
  simp only [Framebuffer.pixel, Nat.mod_mod]

theorem State.getPixel_congr {s u : State} (h : u.fb = s.fb) (px py : Nat) : u.getPixel px py = s.getPixel px py := by
  rw [State.getPixel, h, State.getPixel]

theorem spriteHits_mod (x0 y0 : Nat) (rows : List Byte) (px py : Nat) :
    spriteHits x0 y0 rows (px % 64) (py % 32) = spriteHits x0 y0 rows px py := by
  rw [Bool.eq_iff_iff, spriteHits_iff, spriteHits_iff, Nat.mod_mod, Nat.mod_mod]

/-- A sprite bit lands on a pixel of the screen iff the drawing's own test says so. -/
theorem State.SpriteHits_iff (s : State) (x y n : Nibble) {px py : Nat} (hx : px < 64) (hy : py < 32) :
    s.SpriteHits x y n px py ↔ spriteHits (s.reg x).toNat (s.reg y).toNat (s.spriteRows n) px py = true := by
  have hlen : (s.spriteRows n).length = n.toNat := by simp [State.spriteRows]
  have hrow : ∀ r (hr : r < (s.spriteRows n).length), (s.spriteRows n)[r] = Mem.read s.mem (s.base + r) := by
    simp [State.spriteRows]
  rw [spriteHits_iff, Nat.mod_eq_of_lt hx, Nat.mod_eq_of_lt hy]
  refine exists_congr fun r => exists_congr fun c => ?_
  simp only [hrow, exists_prop, hlen]

/-! ## One draw -/

theorem State.spriteRows_length (s : State) (n : Nibble) : (s.spriteRows n).length ≤ 32 := by
  have hn : n.toNat < 16 := n.isLt
  simp only [State.spriteRows, List.length_map, List.length_range]
  omega

/-- Each pixel hit is inverted. -/
theorem okState_drw_pixel (x y n : Nibble) (s : State) (px py : Nat) :
    (okState (.drw x y n) s).getPixel px py =
      (s.getPixel px py ^^ spriteHits (s.reg x).toNat (s.reg y).toNat (s.spriteRows n) px py) :=
  (drawRows_spec _ _ _ (s.spriteRows_length n) (s.fb, false)).1 px py

theorem okState_drw_flag (x y n : Nibble) (s : State) : (okState (.drw x y n) s).reg 0xF#4 =
    flagByte (Framebuffer.draw s.fb (s.reg x) (s.reg y) (s.spriteRows n)).2 :=
  (State.reg_setFlag _ _ _).trans (if_pos rfl)

theorem flagByte_eq_one {c : Bool} : flagByte c = 0x01#8 ↔ c = true := by cases c <;> simp [flagByte]

/-- The collision: a pixel of the screen was hit that was on. -/
theorem okState_drw_collision (x y n : Nibble) (s : State) : (okState (.drw x y n) s).reg 0xF#4 = 0x01#8 ↔
    ∃ px py, px < 64 ∧ py < 32 ∧ s.SpriteHits x y n px py ∧ s.getPixel px py = true := by
  rw [okState_drw_flag, flagByte_eq_one]
  refine (drawRows_spec _ _ _ (s.spriteRows_length n) (s.fb, false)).2.trans ?_
  simp only [Bool.false_eq_true, false_or]
  constructor
  case mp =>
    rintro ⟨px, py, hhit, hon⟩
    have hx : px % 64 < 64 := Nat.mod_lt _ (by decide)
    have hy : py % 32 < 32 := Nat.mod_lt _ (by decide)
    refine ⟨px % 64, py % 32, hx, hy, (s.SpriteHits_iff x y n hx hy).mpr ?_, (Framebuffer.pixel_mod _ px py).trans hon⟩
    rw [spriteHits_mod, hhit]
  case mpr =>
    rintro ⟨px, py, hx, hy, hhit, hon⟩
    exact ⟨px, py, (s.SpriteHits_iff x y n hx hy).mp hhit, hon⟩

theorem errorOf_drw_none {x y n : Nibble} {s : State} (hfit : s.base + n.toNat ≤ 0x1000) (hfits : s.AdvanceFits) :
    errorOf (.drw x y n) s = none := by
  refine State.reachError_eq_none.mpr ⟨?_, hfits⟩
  split <;> omega

theorem errorOf_drw_above {x y n : Nibble} {s : State} (h : 0x1000 < s.base + n.toNat) :
    errorOf (.drw x y n) s = some (.addressOutOfRange 0x1000) := by
  have hbase := s.base_le
  refine State.reachError_above ?_
  rw [if_pos (by omega)]
  omega

/-- Settles O51: on the screen, a pixel changes iff it is hit, so it goes off iff it was on and is hit. -/
theorem drwInvertsSpritePixels : Obligations.DrwInvertsSpritePixels := by
  intro x y n s
  refine ⟨fun hfit hfits => ?draws, fun habove => exec_raised (errorOf_drw_above habove)⟩
  case draws =>
    have hchange : ∀ px py, px < 64 → py < 32 →
        ((okState (.drw x y n) s).getPixel px py ≠ s.getPixel px py ↔ s.SpriteHits x y n px py) := by
      intro px py hx hy
      rw [okState_drw_pixel, s.SpriteHits_iff x y n hx hy]
      cases s.getPixel px py <;> simp
    refine ⟨okState (.drw x y n) s, exec_ok (errorOf_drw_none hfit hfits), hchange, ?_, ?_, fun r hr => ?_, rfl⟩
    · rw [okState_drw_flag]
      exact flagByte_cases _
    · rw [okState_drw_collision]
      refine exists_congr fun px => exists_congr fun py => and_congr_right fun hx => and_congr_right fun hy => ?_
      rw [← hchange px py hx hy, and_comm]
      refine and_congr_right fun hon => ?_
      rw [hon, ne_eq, Bool.not_eq_true]
    · exact okState_reg (beq_eq_false_iff_ne.mpr hr)

/-! ## A second draw -/

section
variable {x y n : Nibble} {s u : State} (hfb : u.fb = (okState (.drw x y n) s).fb) (hx : u.reg x = s.reg x)
  (hy : u.reg y = s.reg y) (hrows : u.spriteRows n = s.spriteRows n)
include hfb hx hy hrows

/-- The same sprite at the same place again inverts the same pixels again. -/
theorem second_drw_pixel (px py : Nat) : (okState (.drw x y n) u).getPixel px py = s.getPixel px py := by
  rw [okState_drw_pixel, State.getPixel_congr hfb, okState_drw_pixel, hx, hy, hrows, Bool.xor_assoc, Bool.xor_self,
    Bool.xor_false]

/-- It collides where the first draw turned a pixel on. -/
theorem second_drw_collision : (okState (.drw x y n) u).reg 0xF#4 = 0x01#8 ↔
    ∃ px py, px < 64 ∧ py < 32 ∧ s.SpriteHits x y n px py ∧ s.getPixel px py = false := by
  rw [okState_drw_collision]
  refine exists_congr fun px => exists_congr fun py => and_congr_right fun hpx => and_congr_right fun hpy => ?_
  rw [u.SpriteHits_iff x y n hpx hpy, s.SpriteHits_iff x y n hpx hpy, hx, hy, hrows]
  refine and_congr_right fun hhit => ?_
  rw [State.getPixel_congr hfb, okState_drw_pixel, hhit, Bool.xor_true, Bool.not_eq_true']

end

/-- Settles O52: the first draw leaves `V[x]` and `V[y]`, neither being `VF`, and `I` and memory, so the second one finds
the same sprite at the same place. -/
theorem drwTwiceRestores : Obligations.DrwTwiceRestores := by
  intro x y n s t hx hy hexec ht
  obtain ⟨he, rfl⟩ := exec_inv hexec ht
  have hkept : ∀ r, r ≠ 0xF#4 → (okState (.drw x y n) s).reg r = s.reg r := fun r hr =>
    okState_reg (beq_eq_false_iff_ne.mpr hr)
  refine ⟨_, exec_ok he, ?ok, fun px py _ _ => ?pixels, ?flag⟩
  case ok => exact (okState_fault _ _).trans ht
  case pixels => exact second_drw_pixel rfl (hkept x hx) (hkept y hy) rfl px py
  case flag => exact second_drw_collision rfl (hkept x hx) (hkept y hy) rfl

end Sys2Proof.Machine
end
